-- ==== Sys2Proof/Word.lean ====
section
/-! DEFINITION. The bit-vector types of the bus (spec/00_scope.md R7, spec/20_memory.md R60, R61). -/

namespace Sys2Proof

/-- A 32-bit bus word, register word or command word (R61, R90). -/
abbrev Word := BitVec 32

/-- One byte lane of a bus word (R65). -/
abbrev Byte := BitVec 8

/-- A byte offset in the register window, 0x000 to 0xFFF (R60). -/
abbrev Offset := BitVec 12

end Sys2Proof
end

