-- ==== Sys2Proof/Syntax.lean ====
section
/-! DEFINITION. The commands of the CORE: one constructor per row of spec/opcode_table.json (spec/30_encoding.md R91).
No command has a register-number or immediate field (R90), so no constructor has an argument. -/

namespace Sys2Proof

/-- The seven commands of R91. -/
inductive Instr where
  /-- MODEXP, opcode 0x01 (R145). -/
  | modexp
  /-- EGCD, opcode 0x02 (R150). -/
  | egcd
  /-- CRT, opcode 0x03 (R155). -/
  | crt
  /-- FERMAT, opcode 0x04 (R185). -/
  | fermat
  /-- MSQRT, opcode 0x05 (R205). -/
  | msqrt
  /-- RSQRT, opcode 0x06 (R210). -/
  | rsqrt
  /-- SMOOTH, opcode 0x07 (R235). -/
  | smooth
deriving DecidableEq, Repr

/-- The mnemonic, upper case, exactly as in R91 (R100). -/
def Instr.mnemonic : Instr → String
  | .modexp => "MODEXP"
  | .egcd => "EGCD"
  | .crt => "CRT"
  | .fermat => "FERMAT"
  | .msqrt => "MSQRT"
  | .rsqrt => "RSQRT"
  | .smooth => "SMOOTH"

end Sys2Proof
end

