-- ==== Sys2Proof/Decode.lean ====
section
/-! DEFINITION. Command words: the decoder, total on every word and every byte list, and the encoder, both from
spec/30_encoding.md R90 to R93 and the byte lanes of spec/20_memory.md R65, R66. -/

namespace Sys2Proof

/-- Why a command word or a byte list is no command. All three word errors are BADCMD (R92, R93). -/
inductive DecodeError where
  /-- RSVD, bits [31:8], is not 0 (R93). -/
  | reservedBits
  /-- OPCODE is 0x00 (R93). -/
  | opcodeZero
  /-- OPCODE is 0x08 to 0xFF (R93). -/
  | opcodeUndefined
  /-- Fewer than the four bytes of a command word (R97). -/
  | truncated
deriving DecidableEq, Repr

/-- OPCODE, bits [7:0] of a command word (R90). -/
def opcodeField (w : Word) : BitVec 8 := w.extractLsb' 0 8

/-- RSVD, bits [31:8] of a command word (R90). -/
def rsvdField (w : Word) : BitVec 24 := w.extractLsb' 8 24

/-- The opcode map of R91, and the names of the words outside it (R93). -/
def decodeOpcode : Nat → Except DecodeError Instr
  | 0x00 => .error .opcodeZero
  | 0x01 => .ok .modexp
  | 0x02 => .ok .egcd
  | 0x03 => .ok .crt
  | 0x04 => .ok .fermat
  | 0x05 => .ok .msqrt
  | 0x06 => .ok .rsqrt
  | 0x07 => .ok .smooth
  | _ => .error .opcodeUndefined

/-- R92: a word is valid when RSVD = 0 and OPCODE is one of 0x01 to 0x07. -/
def decode (w : Word) : Except DecodeError Instr :=
  if rsvdField w = 0 then decodeOpcode (opcodeField w).toNat else .error .reservedBits

/-- The word of four bytes at ascending addresses: byte lane j carries bits [8j+7:8j] (R65). -/
def wordOfLanes (b0 b1 b2 b3 : Byte) : Word := b3 ++ b2 ++ b1 ++ b0

/-- The decoder on bytes at ascending addresses: one command word from the front, and the rest. -/
def decodeBytes : List Byte → Except DecodeError (Instr × List Byte)
  | b0 :: b1 :: b2 :: b3 :: rest =>
    match decode (wordOfLanes b0 b1 b2 b3) with
    | .ok i => .ok (i, rest)
    | .error e => .error e
  | _ => .error .truncated

/-- The OPCODE of each command (R91). -/
def opcodeOf : Instr → BitVec 8
  | .modexp => 0x01
  | .egcd => 0x02
  | .crt => 0x03
  | .fermat => 0x04
  | .msqrt => 0x05
  | .rsqrt => 0x06
  | .smooth => 0x07

/-- The command word 0x000000NN of a command (R91). -/
def encode (i : Instr) : Word := (0 : BitVec 24) ++ opcodeOf i

/-- Byte lane j of a word (R65). -/
def laneOf (w : Word) (j : Nat) : Byte := w.extractLsb' (8 * j) 8

/-- The four bytes of a command word at ascending addresses (R65, R66). -/
def encodeBytes (i : Instr) : List Byte :=
  [laneOf (encode i) 0, laneOf (encode i) 1, laneOf (encode i) 2, laneOf (encode i) 3]

/-- The command word that `nbits` table bits `w` stand for: bits at and above `nbits` are 0. -/
def tableWord (nbits w : Nat) : Word := BitVec.ofNat 32 (w % 2 ^ nbits)

/-- What the decoder reads from an opcode-table row's bits. Every command word has 32 bits (R97), so a longer row is
no command. -/
def decodeTableWord (nbits w : Nat) : Option Instr :=
  if nbits ≤ 32 then
    match decode (tableWord nbits w) with
    | .ok i => some i
    | .error _ => none
  else none

end Sys2Proof
end

