-- ==== Sys2Proof/Config.lean ====
section
/-! DEFINITION. What an implementation fixes: the two OPEN parameters of spec/00_scope.md R6 that the model's
behaviour depends on, OPW_WORDS and BASE. LATENCY and the witness stream are in State's `inputs`. The primality-check
method has no effect on results (R200). -/

namespace Sys2Proof

/-- The configuration of one CORE, constant while it runs. The bounds stand with the numbers, so that no other
configuration can be written down: 1 ≤ K ≤ 64 (R5), BASE a multiple of 4096 (R60). -/
structure Config where
  /-- OPW_WORDS, K: the operand width in 32-bit words (R5). -/
  opwWords : Nat
  /-- BASE: the bus address of the register window (R60). -/
  base : Nat
  one_le_opwWords : 1 ≤ opwWords
  opwWords_le : opwWords ≤ 64
  base_aligned : base % 4096 = 0
deriving DecidableEq, Repr

/-- W = 32·K, the width of every operand and result register (R5). -/
abbrev Config.width (c : Config) : Nat := 32 * c.opwWords

/-- The configuration State.reset is written with. K = 2 is the spec's reference configuration (R5).
DESIGN CHOICE (log entry 1): the spec leaves K and BASE open; BASE is 0 here. No statement rests on either. -/
def Config.reference : Config where
  opwWords := 2
  base := 0
  one_le_opwWords := by decide
  opwWords_le := by decide
  base_aligned := by decide

end Sys2Proof
end

