-- ==== Sys2Proof/Machine/State.lean ====
section
/-! DEFINITION. The state of the CORE as plain data (spec/10_state.md R20 to R44), the outside world's coming turns, the
reasons a step can stop, and the state after reset (spec/70_reset_and_hazards.md R291). -/

namespace Sys2Proof.Machine

/-- The error codes 0x0 to 0xA of R251. The reserved codes 0xB to 0xF are never produced (R37) and cannot be written
down (log entry 11). -/
inductive ErrCode where
  | ok
  | badCmd
  | negExponent
  | badModulus
  | notCoprime
  | wrongClass
  | notPrime
  | equalPrimes
  | badRounds
  | badBound
  | range
deriving DecidableEq, Repr

/-- The names of the operand registers (R22). -/
inductive OpReg where
  | a
  | b
  | c
  | d
deriving DecidableEq, Repr

/-- The names of the result registers (R25). -/
inductive ResReg where
  | r0
  | r1
  | r2
  | r3
deriving DecidableEq, Repr

/-- What the engine holds of an accepted command (R41): the command word and OPA..OPD at the accept. -/
structure Snapshot (w : Nat) where
  word : Word
  opa : BitVec w
  opb : BitVec w
  opc : BitVec w
  opd : BitVec w
deriving DecidableEq, Repr

/-- The engine phase (R40). A snapshot (R41) and the draws consumed so far, oldest first (R42), exist while BUSY only. -/
inductive Phase (w : Nat) where
  | idle
  | busy (snap : Snapshot w) (draws : List (BitVec w))
deriving DecidableEq, Repr

/-- One bus access, legal or illegal (R61, R62), at a bus address, with its size in bytes and, on a write, the four
byte enables. -/
inductive Access where
  | read (addr : Nat) (size : Nat)
  | write (addr : Nat) (size : Nat) (enables : BitVec 4) (data : Word)
deriving DecidableEq, Repr

/-- What the bus port answers (R61, R62). -/
inductive BusResponse where
  /-- No access yet. -/
  | none
  /-- A legal read's word. -/
  | readOk (data : Word)
  /-- A legal write. -/
  | writeOk
  /-- A bus error on a read, with the data it returns (R62). -/
  | readError (data : Word)
  /-- A bus error on a write (R62). -/
  | writeError
deriving DecidableEq, Repr

/-- One turn of an agent of R20, or of the reset input (R290). -/
inductive Event (w : Nat) where
  /-- The host makes a bus access. -/
  | access (a : Access)
  /-- The engine has the turn. -/
  | engine
  /-- The witness source drives wit_valid = 1 with wit_data = r (R180). The value is a draw under no law. -/
  | witness (r : BitVec w)
  /-- Hardware reset: `rst` is asserted (R290). -/
  | rst
deriving DecidableEq, Repr

/-- The state. `inputs` and `resp` are the model's own; every other field is the spec's. BUSY, ERR, ID, irq and
wit_ready are functions of it (R27, R33, R35, R44). -/
structure State where
  /-- The configuration, which no step changes (R5, R60; log entry 1). -/
  cfg : Config
  /-- OPA (R22). -/
  opa : BitVec cfg.width
  /-- OPB (R22). -/
  opb : BitVec cfg.width
  /-- OPC (R22). -/
  opc : BitVec cfg.width
  /-- OPD (R22). -/
  opd : BitVec cfg.width
  /-- RES0 (R25). -/
  res0 : BitVec cfg.width
  /-- RES1 (R25). -/
  res1 : BitVec cfg.width
  /-- RES2 (R25). -/
  res2 : BitVec cfg.width
  /-- RES3 (R25). -/
  res3 : BitVec cfg.width
  /-- CTRL.IE (R28). -/
  ie : Bool
  /-- CMD: the last accepted command word (R31). -/
  cmd : Word
  /-- STATUS.DONE (R34). -/
  done : Bool
  /-- STATUS.OVR (R36). -/
  ovr : Bool
  /-- STATUS.ERRCODE (R37). -/
  errcode : ErrCode
  /-- STATUS.RCOUNT (R38). -/
  rcount : BitVec 3
  /-- The engine phase with its snapshot and draws (R40, R41, R42). -/
  phase : Phase cfg.width
  /-- The outside world's coming turns in the total order of R70, first one first. DESIGN CHOICE (log entry 2). -/
  inputs : List (Event cfg.width)
  /-- What the bus port answered to the last access. DESIGN CHOICE (log entry 3). -/
  resp : BusResponse
deriving DecidableEq, Repr

/-- Why the machine stops with a fault. No command ever does: an error is a completion (R250). -/
inductive Fault where
  /-- A bus access at an address outside [BASE, BASE + 4096), which is no address of the CORE (R60). Raised by
  `busAccess`. Safe: the model stops where a platform would select another device (log entry 7). -/
  | outsideWindow
deriving DecidableEq, Repr

/-- Why the model gives no meaning. -/
inductive Refusal where
  /-- Raised by an arm of `exec` for an instruction without a meaning; no arm does. Safe: the model stops. -/
  | notModelled (mnemonic : String)
deriving DecidableEq, Repr

/-- The state right after a reset of a CORE with configuration `c` (R291): every register 0, phase IDLE, nothing yet to
come from outside. -/
def State.resetOf (c : Config) : State where
  cfg := c
  opa := 0
  opb := 0
  opc := 0
  opd := 0
  res0 := 0
  res1 := 0
  res2 := 0
  res3 := 0
  ie := false
  cmd := 0
  done := false
  ovr := false
  errcode := .ok
  rcount := 0
  phase := .idle
  inputs := []
  resp := .none

/-- The state right after reset in the reference configuration. -/
def State.reset : State := State.resetOf Config.reference

end Sys2Proof.Machine
end

