-- ==== Sys2Proof/Machine/Flags.lean ====
section
/-! DEFINITION. The control and status words and the interrupt (spec/10_state.md R27 to R39, spec/60_exceptions.md
R251, R260, R261). -/

namespace Sys2Proof.Machine

/-- The 4-bit number of an error code (R251). -/
def ErrCode.code : ErrCode → BitVec 4
  | .ok => 0x0
  | .badCmd => 0x1
  | .negExponent => 0x2
  | .badModulus => 0x3
  | .notCoprime => 0x4
  | .wrongClass => 0x5
  | .notPrime => 0x6
  | .equalPrimes => 0x7
  | .badRounds => 0x8
  | .badBound => 0x9
  | .range => 0xA

/-- STATUS.BUSY: 1 exactly when the phase is BUSY (R33). -/
def busyBit (s : State) : Bool :=
  match s.phase with
  | .idle => false
  | .busy _ _ => true

/-- STATUS.ERR: ERRCODE ≠ 0 (R35). -/
def errBit (s : State) : Bool := s.errcode.code != 0

/-- The STATUS word (R32): RCOUNT [18:16], ERRCODE [11:8], OVR [3], ERR [2], DONE [1], BUSY [0], all else 0. -/
def statusWord (s : State) : Word :=
  (0 : BitVec 13) ++ s.rcount ++ (0 : BitVec 4) ++ s.errcode.code ++ (0 : BitVec 4) ++ BitVec.ofBool s.ovr ++
    BitVec.ofBool (errBit s) ++ BitVec.ofBool s.done ++ BitVec.ofBool (busyBit s)

/-- The CTRL word as read: IE in bit 0, SRST and the reserved bits 0 (R28, R29, R30). -/
def ctrlWord (s : State) : Word := (0 : BitVec 31) ++ BitVec.ofBool s.ie

/-- ID: MAGIC 0x52, NCMD 0x07, OPW_WORDS K, VERSION 0x01 (R27). -/
def idWord (c : Config) : Word :=
  (0x52 : BitVec 8) ++ (0x07 : BitVec 8) ++ BitVec.ofNat 8 c.opwWords ++ (0x01 : BitVec 8)

/-- A host write to STATUS: bit 1 clears DONE, bit 3 clears OVR, all else is ignored (R32 to R38). Writing 1 to DONE is
the acknowledge of a completion, which restores nothing and leaves the results alone (R266). -/
def writeStatus (v : Word) (s : State) : State :=
  { s with done := s.done && !v.getLsbD 1, ovr := s.ovr && !v.getLsbD 3 }

/-- The irq output: a level, DONE ∧ IE (R44, R260). -/
def irq (s : State) : Bool := s.done && s.ie

end Sys2Proof.Machine
end

