-- ==== Sys2Proof/Machine/Operands.lean ====
section
/-! DEFINITION. How operands and results are read and written: signed and unsigned values, the range a result must fit
(spec/00_scope.md R8), the words of a W-bit register (spec/20_memory.md R64), and the registers by name. -/

namespace Sys2Proof.Machine

/-- sval: the two's-complement value of a W-bit register (R8). Every command operand is read so (R94). -/
def sval {w : Nat} (x : BitVec w) : Int := x.toInt

/-- uval: the unsigned value (R8). A witness draw is read so (R180). -/
def uval {w : Nat} (x : BitVec w) : Int := (x.toNat : Int)

/-- enc_W: the W-bit pattern v mod 2^W of an integer (R8, R116). -/
def encW (w : Nat) (v : Int) : BitVec w := BitVec.ofInt w v

/-- fits_W(v): −2^(W−1) ≤ v ≤ 2^(W−1)−1 (R8). -/
def fitsW (w : Nat) (v : Int) : Bool := decide (-(2 ^ (w - 1) : Int) ≤ v ∧ v ≤ 2 ^ (w - 1) - 1)

/-- Word i of a register, bits [32i+31:32i] (R64). -/
def getWord {w : Nat} (x : BitVec w) (i : Nat) : Word := x.extractLsb' (32 * i) 32

/-- The register with word i replaced by `v` and its other bits kept (R23). -/
def setWord {w : Nat} (x : BitVec w) (i : Nat) (v : Word) : BitVec w :=
  (x &&& ~~~((BitVec.allOnes 32).setWidth w <<< (32 * i))) ||| (v.setWidth w <<< (32 * i))

/-- The W-bit value of words at ascending offsets, word 0 first (R64). -/
def ofWords (w : Nat) : List Word → BitVec w
  | [] => 0
  | v :: vs => v.setWidth w ||| (ofWords w vs <<< 32)

/-- An operand register by name (R22). -/
def operand (s : State) : OpReg → BitVec s.cfg.width
  | .a => s.opa
  | .b => s.opb
  | .c => s.opc
  | .d => s.opd

/-- A result register by name (R25). -/
def result (s : State) : ResReg → BitVec s.cfg.width
  | .r0 => s.res0
  | .r1 => s.res1
  | .r2 => s.res2
  | .r3 => s.res3

/-- Writes one word of an operand register; every other bit of the state is kept (R23). -/
def writeOperandWord (s : State) (x : OpReg) (i : Nat) (v : Word) : State :=
  match x with
  | .a => { s with opa := setWord s.opa i v }
  | .b => { s with opb := setWord s.opb i v }
  | .c => { s with opc := setWord s.opc i v }
  | .d => { s with opd := setWord s.opd i v }

/-- The value written to result slot j: `enc_W` of the j-th result, or 0 where the command defines none (R25, R113). -/
def resultSlot (w : Nat) (vs : List Int) (j : Nat) : BitVec w :=
  match vs[j]? with
  | some v => encW w v
  | none => 0

end Sys2Proof.Machine
end

