-- ==== Sys2Proof/Machine/Ops.lean ====
section
/-! DEFINITION. The operations every command and every access share: reset, accept, completion with results or with an
error (this hardware's exception entry), and the register window (spec/20_memory.md, spec/40_command_lifecycle.md,
spec/60_exceptions.md, spec/70_reset_and_hazards.md). -/

namespace Sys2Proof.Machine

/-! ## Outcomes and completion -/

/-- How a command ends (R112): with integer results, or with an error code. -/
inductive CmdOutcome where
  | ok (vs : List Int)
  | fail (code : ErrCode)
deriving DecidableEq, Repr

/-- R115: if any result does not fit W bits the outcome becomes fail(RANGE). -/
def rangeCheck (w : Nat) : CmdOutcome → CmdOutcome
  | .ok vs => if vs.all (fitsW w) then .ok vs else .fail .range
  | .fail c => .fail c

/-- R250: an error completion. ERRCODE gets the code, RCOUNT 0, DONE 1, the phase is IDLE; RES0..RES3 and all else
are kept. The CORE saves no state, changes no mode and sends control nowhere (R265). -/
def completeFail (c : ErrCode) (s : State) : State :=
  { s with rcount := 0, errcode := c, done := true, phase := .idle }

/-- R113: a successful completion. All four result registers are written at once, unused slots with 0 (R25). -/
def completeOk (vs : List Int) (s : State) : State :=
  { s with
    res0 := resultSlot s.cfg.width vs 0
    res1 := resultSlot s.cfg.width vs 1
    res2 := resultSlot s.cfg.width vs 2
    res3 := resultSlot s.cfg.width vs 3
    rcount := BitVec.ofNat 3 vs.length
    errcode := .ok
    done := true
    phase := .idle }

/-- The completion step (R113), after the range check (R115). -/
def complete (o : CmdOutcome) (s : State) : State :=
  match rangeCheck s.cfg.width o with
  | .ok vs => completeOk vs s
  | .fail c => completeFail c s

/-- The engine's turn with the execution function `F` of a command (R112). While BUSY, an outcome completes the
command; while `F` still needs a witness draw the engine waits and nothing changes (R181; log entry 6). In the IDLE
phase the engine does no work (R275; log entry 5). -/
def runCommand (s : State) (F : Snapshot s.cfg.width → List (BitVec s.cfg.width) → Option CmdOutcome) : State :=
  match s.phase with
  | .idle => s
  | .busy snap draws =>
    match F snap draws with
    | some o => complete o s
    | none => s

/-- The completion of an accepted illegal word, with no operand check (R92). -/
def completeBadCmd (s : State) : State := runCommand s fun _ _ => some (.fail .badCmd)

/-! ## Accept and reset -/

/-- R110: the engine takes a command word, in the same step as the CMD write. Valid and illegal words alike. -/
def accept (v : Word) (s : State) : State :=
  { s with
    cmd := v
    phase := .busy ⟨v, s.opa, s.opb, s.opc, s.opd⟩ []
    done := false
    errcode := .ok
    rcount := 0 }

/-- A host write to CMD: accepted while IDLE (R110); while BUSY its one effect is OVR (R111). -/
def writeCmd (v : Word) (s : State) : State :=
  match s.phase with
  | .idle => accept v s
  | .busy _ _ => { s with ovr := true }

/-- R291, from either source: every register 0, phase IDLE. The configuration, the turns still to come and the bus
port's last answer are no registers of the CORE and stay (log entry 15). -/
def resetCore (s : State) : State :=
  { State.resetOf s.cfg with inputs := s.inputs, resp := s.resp }

/-- A host write to CTRL: bit 1 is a soft reset, all other bits then ignored (R29, R292); otherwise IE gets bit 0 (R28)
and the reserved bits are ignored (R30). -/
def writeCtrl (v : Word) (s : State) : State :=
  if v.getLsbD 1 then resetCore s else { s with ie := v.getLsbD 0 }

/-! ## The register window -/

/-- What a word-aligned offset names (R21, R63). -/
inductive Target where
  | id
  | ctrl
  | cmd
  | status
  | operand (x : OpReg) (i : Nat)
  | result (j : ResReg) (i : Nat)
  | reserved
deriving DecidableEq, Repr

/-- The first page: the four registers at 0x000 to 0x00C, then reserved words (R21). -/
def controlTarget : Nat → Target
  | 0 => .id
  | 1 => .ctrl
  | 2 => .cmd
  | 3 => .status
  | _ => .reserved

/-- Word i of an operand or result window: words K..63 are reserved (R21, R63). -/
def windowTarget (k i : Nat) (t : Target) : Target := if i < k then t else .reserved

/-- The map of R21 by 0x100-byte page and word in the page. -/
def pageTarget (k page i : Nat) : Target :=
  match page with
  | 0x0 => controlTarget i
  | 0x1 => windowTarget k i (.operand .a i)
  | 0x2 => windowTarget k i (.operand .b i)
  | 0x3 => windowTarget k i (.operand .c i)
  | 0x4 => windowTarget k i (.operand .d i)
  | 0x8 => windowTarget k i (.result .r0 i)
  | 0x9 => windowTarget k i (.result .r1 i)
  | 0xA => windowTarget k i (.result .r2 i)
  | 0xB => windowTarget k i (.result .r3 i)
  | _ => .reserved

/-- The register map of R21. -/
def target (k : Nat) (off : Offset) : Target := pageTarget k (off.toNat / 0x100) (off.toNat % 0x100 / 4)

/-- RegRead(off) at a legal offset: the word read, with no side effect (R24, R26 to R32, R63, R67). -/
def regRead (off : Offset) (s : State) : Word :=
  match target s.cfg.opwWords off with
  | .id => idWord s.cfg
  | .ctrl => ctrlWord s
  | .cmd => s.cmd
  | .status => statusWord s
  | .operand x i => getWord (operand s x) i
  | .result j i => getWord (result s j) i
  | .reserved => 0

/-- RegWrite(off, v) at a legal offset (R23, R25, R28 to R38, R63). Writes to ID, RES0..RES3 and reserved offsets are
ignored. -/
def regWrite (off : Offset) (v : Word) (s : State) : State :=
  match target s.cfg.opwWords off with
  | .id => s
  | .ctrl => writeCtrl v s
  | .cmd => writeCmd v s
  | .status => writeStatus v s
  | .operand x i => writeOperandWord s x i v
  | .result _ _ => s
  | .reserved => s

/-- The offset of a bus address in the window at BASE (R60), or none where the address is not the CORE's. -/
def windowOffset (c : Config) (addr : Nat) : Option Offset :=
  if c.base ≤ addr ∧ addr < c.base + 4096 then some (BitVec.ofNat 12 (addr - c.base)) else none

/-- R61: a legal access has off mod 4 = 0 and 4 bytes. -/
def legalShape (off : Offset) (size : Nat) : Bool := off.toNat % 4 == 0 && size == 4

/-- The bus port's answer to an access; no register changes (log entry 3). -/
def answer (r : BusResponse) (s : State) : State := { s with resp := r }

/-- The bus port (R61, R62, R255). An illegal access gets a bus error response, read data 0, and changes no state. -/
def busAccess (a : Access) (s : State) : Host.Outcome State Fault Refusal :=
  match a with
  | .read addr size =>
    match windowOffset s.cfg addr with
    | none => .fault .outsideWindow
    | some off =>
      if legalShape off size then .next (answer (.readOk (regRead off s)) s)
      else .next (answer (.readError 0) s)
  | .write addr size enables data =>
    match windowOffset s.cfg addr with
    | none => .fault .outsideWindow
    | some off =>
      if legalShape off size && enables == 0xF#4 then .next (answer .writeOk (regWrite off data s))
      else .next (answer .writeError s)

/-- MemRead(BASE + off, 4), which is RegRead(off) named from the host's side (R61). -/
def Access.regRead (c : Config) (off : Offset) : Access := .read (c.base + off.toNat) 4

/-- MemWrite(BASE + off, 4, v), which is RegWrite(off, v) (R61). -/
def Access.regWrite (c : Config) (off : Offset) (v : Word) : Access := .write (c.base + off.toNat) 4 0xF v

end Sys2Proof.Machine
end

