-- ==== Sys2Proof/Machine/ModularArithmetic.lean ====
section
/-! DEFINITION. MODEXP, EGCD and CRT (spec/41_modular_arithmetic.md). All arithmetic is exact on ℤ (R160). -/

namespace Sys2Proof.Machine

/-- The loop of R140. The first argument bounds the recursion; `e` rounds are more than the loop makes. -/
def modexpLoop : Nat → Int → Int → Nat → Int → Int
  | 0, r, _, _, _ => r
  | fuel + 1, r, x, e, m =>
    if e = 0 then r
    else modexpLoop fuel (if e % 2 = 1 then r * x % m else r) (x * x % m) (e / 2) m

/-- modexp_fn (R140), for e ≥ 0 and m ≥ 1. -/
def modexpFn (b : Int) (e : Nat) (m : Int) : Int := modexpLoop e (1 % m) (b % m) e m

/-- The Euclidean recursion of R141. The first argument bounds it; b strictly decreases to 0. -/
def egcdLoop : Nat → Nat → Nat → Nat × Int × Int
  | 0, a, _ => (a, 1, 0)
  | fuel + 1, a, b =>
    if b = 0 then (a, 1, 0)
    else
      match egcdLoop fuel b (a % b) with
      | (g, x1, y1) => (g, y1, x1 - ((a / b : Nat) : Int) * y1)

/-- egcd_nat (R141). -/
def egcdNat (a b : Nat) : Nat × Int × Int := egcdLoop b a b

/-- egcd_fn (R142): the recursion on |a| and |b|; a negative operand negates its coefficient. -/
def egcdFn (a b : Int) : Int × Int × Int :=
  match egcdNat a.natAbs b.natAbs with
  | (g, x, y) => ((g : Int), if a < 0 then -x else x, if b < 0 then -y else y)

/-- crt_fn (R143), for p ≥ 1, q ≥ 1 with gcd(p, q) = 1. -/
def crtFn (a b p q : Int) : Int :=
  match egcdFn p q with
  | (_, s, t) => (a * q * t + b * p * s) % (p * q)

/-- The outcome of MODEXP on base, exponent and modulus (R145). -/
def modexpOutcome (base exponent modulus : Int) : CmdOutcome :=
  if exponent < 0 then .fail .negExponent
  else if modulus < 1 then .fail .badModulus
  else .ok [modexpFn base exponent.toNat modulus]

/-- The outcome of EGCD (R150). -/
def egcdOutcome (a b : Int) : CmdOutcome :=
  match egcdFn a b with
  | (g, x, y) => .ok [g, x, y]

/-- The outcome of CRT (R155). -/
def crtOutcome (a b p q : Int) : CmdOutcome :=
  if p < 1 ∨ q < 1 then .fail .badModulus
  else if (egcdFn p q).1 ≠ 1 then .fail .notCoprime
  else .ok [crtFn a b p q]

/-- MODEXP (R145): base = OPA, exponent = OPB, modulus = OPC. -/
def execModexp (s : State) : Host.Outcome State Fault Refusal :=
  .next (runCommand s fun snap _ => some (modexpOutcome (sval snap.opa) (sval snap.opb) (sval snap.opc)))

/-- EGCD (R150): a = OPA, b = OPB. -/
def execEgcd (s : State) : Host.Outcome State Fault Refusal :=
  .next (runCommand s fun snap _ => some (egcdOutcome (sval snap.opa) (sval snap.opb)))

/-- CRT (R155): a = OPA, b = OPB, p = OPC, q = OPD. -/
def execCrt (s : State) : Host.Outcome State Fault Refusal :=
  .next (runCommand s fun snap _ =>
    some (crtOutcome (sval snap.opa) (sval snap.opb) (sval snap.opc) (sval snap.opd)))

end Sys2Proof.Machine
end

