-- ==== Sys2Proof/Machine/Primality.lean ====
section
/-! DEFINITION. FERMAT and the witness port (spec/42_primality.md). -/

namespace Sys2Proof.Machine

/-- R182: the witness a draw gives, for odd n ≥ 5. -/
def witnessOf {w : Nat} (n : Int) (r : BitVec w) : Int := 2 + uval r % (n - 3)

/-- The trial loop of R185 over the draws consumed: `left` trials are still to run, `i` have run, `a` is the last
witness. None while a trial waits for its draw (R181). A draw behind the deciding one is not looked at. -/
def fermatTrials {w : Nat} (n : Int) : Nat → Int → Int → List (BitVec w) → Option CmdOutcome
  | 0, i, a, _ => some (.ok [1, i, a])
  | _ + 1, _, _, [] => none
  | left + 1, i, _, r :: rs =>
    if modexpFn (witnessOf n r) (n - 1).toNat n = 1 then fermatTrials n left (i + 1) (witnessOf n r) rs
    else some (.ok [0, i + 1, witnessOf n r])

/-- The outcome of FERMAT on n and rounds with the draws consumed so far (R185), or none while it waits for a draw. -/
def fermatOutcome {w : Nat} (n rounds : Int) (draws : List (BitVec w)) : Option CmdOutcome :=
  if rounds < 1 then some (.fail .badRounds)
  else if n < 2 then some (.ok [0, 0, 0])
  else if n = 2 ∨ n = 3 then some (.ok [1, 0, 0])
  else if n % 2 = 0 then some (.ok [0, 0, 0])
  else fermatTrials n rounds.toNat 0 0 draws

/-- FERMAT (R185): n = OPA, rounds = OPB. -/
def execFermat (s : State) : Host.Outcome State Fault Refusal :=
  .next (runCommand s fun snap draws => fermatOutcome (sval snap.opa) (sval snap.opb) draws)

/-- A FERMAT command with this snapshot and these draws waits for the draw of its next trial (R180). -/
def awaitsDraw {w : Nat} (snap : Snapshot w) (draws : List (BitVec w)) : Bool :=
  match decode snap.word with
  | .ok .fermat => (fermatOutcome (sval snap.opa) (sval snap.opb) draws).isNone
  | _ => false

/-- The wit_ready output (R44, R180). -/
def witReady (s : State) : Bool :=
  match s.phase with
  | .idle => false
  | .busy snap draws => awaitsDraw snap draws

/-- The witness source offers `r` in this turn: taken when wit_ready is 1 (R180, R42); otherwise it is neither consumed
nor stored. -/
def offerWitness (s : State) (r : BitVec s.cfg.width) : State :=
  match s.phase with
  | .idle => s
  | .busy snap draws => if awaitsDraw snap draws then { s with phase := .busy snap (draws ++ [r]) } else s

end Sys2Proof.Machine
end

