-- ==== Sys2Proof/Machine/NumberTheory.lean ====
section
/-! DEFINITION. The number-theoretic primitives of spec/00_scope.md R10 that more than one command uses. Remainders and
quotients by a positive modulus are Lean's `%` and `/` on Int, which are the floor ones of R9. -/

namespace Sys2Proof.Machine

/-- No divisor of n from d on, as far as d·d ≤ n. The first argument bounds the recursion. -/
def noDivisorFrom : Nat → Nat → Nat → Bool
  | 0, _, _ => true
  | fuel + 1, d, n =>
    if n < d * d then true
    else if n % d = 0 then false
    else noDivisorFrom fuel (d + 1) n

/-- isPrime on naturals (R10), exact, by trial division; the method is not visible (R200; log entry 12). -/
def isPrimeNat (n : Nat) : Bool := decide (2 ≤ n) && noDivisorFrom n 2 n

/-- isPrime (R10): false for every integer below 2. -/
def isPrime (v : Int) : Bool := isPrimeNat v.toNat

/-- Inserts into a strictly ascending list; a value already there is not inserted again. -/
def insertAsc (v : Int) : List Int → List Int
  | [] => [v]
  | u :: us => if v < u then v :: u :: us else if v = u then u :: us else u :: insertAsc v us

/-- sortAsc: a finite set of integers, given by any list of its elements, as a strictly ascending list (R10). -/
def sortAsc : List Int → List Int
  | [] => []
  | v :: vs => insertAsc v (sortAsc vs)

end Sys2Proof.Machine
end

