-- ==== Sys2Proof/Machine/SmoothExponent.lean ====
section
/-! DEFINITION. SMOOTH (spec/44_smooth_exponent.md). The primes are exact and no draw is used (R231). -/

namespace Sys2Proof.Machine

/-- The inner loop of R230: multiplies k by p as long as the product is at most B. The first argument bounds the
recursion; for p ≥ 2, B rounds are more than the loop makes. -/
def primePowerLoop : Nat → Nat → Nat → Nat → Nat
  | 0, k, _, _ => k
  | fuel + 1, k, p, bound => if k * p ≤ bound then primePowerLoop fuel (k * p) p bound else k

/-- The outer loop of R230: `count` candidates from p on, ascending, with L the product so far. -/
def smoothLoop : Nat → Nat → Nat → Nat → Nat
  | 0, _, acc, _ => acc
  | count + 1, p, acc, bound =>
    smoothLoop count (p + 1) (if isPrimeNat p then acc * primePowerLoop bound p p bound else acc) bound

/-- smooth_fn (R230): p runs over 2..B, which is B − 1 candidates, none for B < 2. -/
def smoothFn (bound : Nat) : Nat := smoothLoop (bound - 1) 2 1 bound

/-- The outcome of SMOOTH (R235). -/
def smoothOutcome (bound : Int) : CmdOutcome :=
  if bound < 0 then .fail .badBound else .ok [(smoothFn bound.toNat : Int)]

/-- SMOOTH (R235): bound = OPA. -/
def execSmooth (s : State) : Host.Outcome State Fault Refusal :=
  .next (runCommand s fun snap _ => some (smoothOutcome (sval snap.opa)))

end Sys2Proof.Machine
end

