-- ==== Sys2Proof/Machine/SquareRoot.lean ====
section
/-! DEFINITION. MSQRT and RSQRT (spec/43_square_root.md). -/

namespace Sys2Proof.Machine

/-- classOK (R201). -/
def classOK (p : Int) : Bool := decide (3 ≤ p) && decide (p % 4 = 3)

/-- msqrt_fn (R202), for p with classOK(p) and isPrime(p): the roots of a modulo p, ascending. -/
def msqrtFn (a p : Int) : List Int :=
  if a % p = 0 then [0]
  else if modexpFn (a % p) ((p - 1) / 2).toNat p ≠ 1 then []
  else
    let x := modexpFn (a % p) ((p + 1) / 4).toNat p
    sortAsc [x, p - x]

/-- The set of R210: the combination of every root modulo p with every root modulo q, ascending. -/
def rsqrtFn (c p q : Int) : List Int :=
  sortAsc ((msqrtFn c p).flatMap fun rp => (msqrtFn c q).map fun rq => crtFn rp rq p q)

/-- The outcome of MSQRT (R205). -/
def msqrtOutcome (a p : Int) : CmdOutcome :=
  if classOK p = false then .fail .wrongClass
  else if isPrime p = false then .fail .notPrime
  else .ok (msqrtFn a p)

/-- The outcome of RSQRT, its checks in the order of R210 and R253. -/
def rsqrtOutcome (c p q : Int) : CmdOutcome :=
  if classOK p = false then .fail .wrongClass
  else if classOK q = false then .fail .wrongClass
  else if p = q then .fail .equalPrimes
  else if isPrime p = false then .fail .notPrime
  else if isPrime q = false then .fail .notPrime
  else .ok (rsqrtFn c p q)

/-- MSQRT (R205): a = OPA, p = OPB. -/
def execMsqrt (s : State) : Host.Outcome State Fault Refusal :=
  .next (runCommand s fun snap _ => some (msqrtOutcome (sval snap.opa) (sval snap.opb)))

/-- RSQRT (R210): c = OPA, p = OPB, q = OPC. -/
def execRsqrt (s : State) : Host.Outcome State Fault Refusal :=
  .next (runCommand s fun snap _ => some (rsqrtOutcome (sval snap.opa) (sval snap.opb) (sval snap.opc)))

end Sys2Proof.Machine
end

