-- ==== Sys2Proof/Machine/Dispatch.lean ====
section
/-! DEFINITION. The meaning of every command: the engine's turn for it. -/

namespace Sys2Proof.Machine

/-- Running a command: the engine evaluates it on the snapshot and completes it (R112, R113). -/
def exec (i : Instr) (s : State) : Host.Outcome State Fault Refusal :=
  match i with
  | .modexp => Sys2Proof.Machine.execModexp s
  | .egcd => Sys2Proof.Machine.execEgcd s
  | .crt => Sys2Proof.Machine.execCrt s
  | .fermat => Sys2Proof.Machine.execFermat s
  | .msqrt => Sys2Proof.Machine.execMsqrt s
  | .rsqrt => Sys2Proof.Machine.execRsqrt s
  | .smooth => Sys2Proof.Machine.execSmooth s

end Sys2Proof.Machine
end

