-- ==== Sys2Proof/Machine/Step.lean ====
section
/-! DEFINITION. One step: the next turn in the total order of events of spec/20_memory.md R70. -/

namespace Sys2Proof.Machine

/-- The engine's turn (R20, R112): while BUSY it runs the command the snapshot's word selects, or completes an illegal
word with BADCMD (R92). In the IDLE phase it does no work (R275). -/
def engineTurn (s : State) : Host.Outcome State Fault Refusal :=
  match s.phase with
  | .idle => .next s
  | .busy snap _ =>
    match decode snap.word with
    | .ok i => exec i s
    | .error _ => .next (completeBadCmd s)

/-- One turn of one agent. -/
def runEvent (s : State) (ev : Event s.cfg.width) : Host.Outcome State Fault Refusal :=
  match ev with
  | .access a => busAccess a s
  | .engine => engineTurn s
  | .witness r => .next (offerWitness s r)
  | .rst => .next (resetCore s)

/-- The next turn: the first of `inputs`, which is then gone, or the engine's where nothing is to come from outside
(R114: the engine always makes progress; log entry 2). -/
def step (s : State) : Host.Outcome State Fault Refusal :=
  match s.inputs with
  | [] => engineTurn s
  | ev :: rest => runEvent { s with inputs := rest } ev

/-- The state in which the very next step runs the command word of an opcode-table row: the word accepted as by a CMD
write at this moment (R110), whatever ran before, and the next turn the engine's (log entry 8). -/
def State.withFetchWord (s : State) (nbits w : Nat) : State :=
  { accept (tableWord nbits w) s with inputs := .engine :: s.inputs }

end Sys2Proof.Machine
end

