-- ==== Sys2Proof/Machine/HostNotation.lean ====
section
/-! DEFINITION. The host's program notation (spec/30_encoding.md R96, R98, R99, R100): what each operation is as bus
transactions. Host computation and branches are no transaction of the CORE (R99) and have no place here. -/

namespace Sys2Proof.Machine

/-- A register name that may stand for an offset (R98). -/
inductive RegName where
  | id
  | ctrl
  | cmd
  | status
  | operand (x : OpReg) (i : Nat)
  | result (j : ResReg) (i : Nat)
deriving DecidableEq, Repr

/-- The base offset of an operand register (R21). -/
def operandBase : OpReg → Nat
  | .a => 0x100
  | .b => 0x200
  | .c => 0x300
  | .d => 0x400

/-- The base offset of a result register (R21). -/
def resultBase : ResReg → Nat
  | .r0 => 0x800
  | .r1 => 0x900
  | .r2 => 0xA00
  | .r3 => 0xB00

/-- The offset a register name stands for (R21, R98). -/
def RegName.offset : RegName → Offset
  | .id => 0x000
  | .ctrl => 0x004
  | .cmd => 0x008
  | .status => 0x00C
  | .operand x i => BitVec.ofNat 12 (operandBase x + 4 * i)
  | .result j i => BitVec.ofNat 12 (resultBase j + 4 * i)

/-- One bus transaction of a host program: R96's triple. A read's data is what the machine answers, so it is no part of
the act. -/
inductive Transaction where
  | w (off : Offset) (data : Word)
  | r (off : Offset)
deriving DecidableEq, Repr

/-- The primitives of R98 and the pseudo-instructions of R99. -/
inductive HostOp where
  | sw (off : Offset) (v : Word)
  | lw (off : Offset)
  | swName (r : RegName) (v : Word)
  | lwName (r : RegName)
  | wr (x : OpReg) (v : Int)
  | rdOperand (x : OpReg)
  | rdResult (j : ResReg)
  | cmd (m : Instr)
  | cmdw (v : Word)
  /-- WAIT, with the number of polls that read BUSY = 1 before the one that ends it (log entry 16). -/
  | wait (polls : Nat)
  | ack
  | ien
  | srst
deriving DecidableEq, Repr

/-- The writes of `WR X, v`: word 0 first (R99). -/
def writeWords (c : Config) (x : OpReg) (v : BitVec c.width) : List Transaction :=
  (List.range c.opwWords).map fun i => .w (RegName.operand x i).offset (getWord v i)

/-- The transactions of one host operation (R98, R99). -/
def HostOp.expand (c : Config) : HostOp → List Transaction
  | .sw off v => [.w off v]
  | .lw off => [.r off]
  | .swName r v => [.w r.offset v]
  | .lwName r => [.r r.offset]
  | .wr x v => writeWords c x (encW c.width v)
  | .rdOperand x => (List.range c.opwWords).map fun i => .r (RegName.operand x i).offset
  | .rdResult j => (List.range c.opwWords).map fun i => .r (RegName.result j i).offset
  | .cmd m => [.w RegName.cmd.offset (encode m)]
  | .cmdw v => [.w RegName.cmd.offset v]
  | .wait polls => List.replicate (polls + 1) (.r RegName.status.offset)
  | .ack => [.w RegName.status.offset 0x0000000A]
  | .ien => [.w RegName.ctrl.offset 0x00000001]
  | .srst => [.w RegName.ctrl.offset 0x00000002]

/-- A transaction as the host's bus access (R61). -/
def Transaction.access (c : Config) : Transaction → Access
  | .w off v => Access.regWrite c off v
  | .r off => Access.regRead c off

/-- The value `RD X` names: sval of the words read, word 0 first (R99). -/
def namedValue (c : Config) (words : List Word) : Int := sval (ofWords c.width words)

/-- A host program as turns of the host. -/
def hostTurns (c : Config) (ops : List HostOp) : List (Event c.width) :=
  (ops.flatMap fun op => op.expand c).map fun t => .access (t.access c)

end Sys2Proof.Machine
end

