-- ==== Sys2Proof/WellFormed.lean ====
section
/-! DEFINITION. What is well formed: command words (spec/30_encoding.md R92, R93), commands, and host operations
(R98, R99). -/

namespace Sys2Proof

/-- R92: RSVD = 0 and OPCODE in 0x01 to 0x07. -/
def validWord (w : Word) : Bool :=
  rsvdField w == 0 && decide (1 ≤ (opcodeField w).toNat) && decide ((opcodeField w).toNat ≤ 7)

/-- A command is well formed when its word is valid. -/
def Instr.wellFormed (i : Instr) : Bool := validWord (encode i)

/-- A register name stands for a register word when its word index is below K (R21, R98). -/
def Machine.RegName.wellFormed (c : Config) : Machine.RegName → Bool
  | .operand _ i => decide (i < c.opwWords)
  | .result _ i => decide (i < c.opwWords)
  | .id => true
  | .ctrl => true
  | .cmd => true
  | .status => true

/-- A host operation is well formed when its offset is a multiple of 4 (R61), its register name a register word, and
the integer of a `WR` fits W bits (R99). -/
def Machine.HostOp.wellFormed (c : Config) : Machine.HostOp → Bool
  | .sw off _ => off.toNat % 4 == 0
  | .lw off => off.toNat % 4 == 0
  | .swName r _ => r.wellFormed c
  | .lwName r => r.wellFormed c
  | .wr _ v => Machine.fitsW c.width v
  | .rdOperand _ => true
  | .rdResult _ => true
  | .cmd m => m.wellFormed
  | .cmdw _ => true
  | .wait _ => true
  | .ack => true
  | .ien => true
  | .srst => true

end Sys2Proof
end

