-- ==== Sys2Proof/Safety.lean ====
section
/-! DEFINITION. What claims are stated in terms of: the invariant of the CORE's registers, and a run that does not stop. -/

namespace Sys2Proof.Machine

/-! ## Ends of a command -/

/-- The state after a successful completion with `k` results (R113): the four slots, RCOUNT, ERRCODE = 0, DONE, IDLE.
Every other field is that of `s`. -/
def State.withResults (s : State) (k : BitVec 3) (v0 v1 v2 v3 : Int) : State :=
  { s with
    res0 := encW s.cfg.width v0
    res1 := encW s.cfg.width v1
    res2 := encW s.cfg.width v2
    res3 := encW s.cfg.width v3
    rcount := k
    errcode := .ok
    done := true
    phase := .idle }

/-- The state after an error completion (R250): RCOUNT = 0, ERRCODE = the code, DONE, IDLE. Every other field, RES0..RES3
among them, is that of `s`. -/
def State.withError (s : State) (c : ErrCode) : State :=
  { s with rcount := 0, errcode := c, done := true, phase := .idle }

/-- The state after a successful completion with a list of results, ascending roots say. -/
def State.withRoots (s : State) (vs : List Int) : State :=
  s.withResults (BitVec.ofNat 3 vs.length) (vs.getD 0 0) (vs.getD 1 0) (vs.getD 2 0) (vs.getD 3 0)

/-- The trial of draw `r` passes: a^(n−1) mod n = 1 with a = 2 + (uval(r) mod (n − 3)) (R182, R185). -/
def trialPasses {w : Nat} (n : Int) (r : BitVec w) : Prop :=
  (2 + (r.toNat : Int) % (n - 3)) ^ (n - 1).toNat % n = 1

/-! ## The invariant -/

/-- What holds of a snapshot and its draws while BUSY: draws exist for a FERMAT only (R42, R180), and each was taken
while the command waited for it (R187). -/
def drawsTaken {w : Nat} (snap : Snapshot w) (draws : List (BitVec w)) : Prop :=
  ∀ k < draws.length, awaitsDraw snap (draws.take k) = true

/-- What the registers say while BUSY: CMD is the snapshot's word (R41), and DONE, ERRCODE and RCOUNT are 0, as the
accept left them (R110). -/
def busyRegisters (s : State) (snap : Snapshot s.cfg.width) : Prop :=
  s.cmd = snap.word ∧ s.done = false ∧ s.errcode = .ok ∧ s.rcount = 0

/-- What the registers say while IDLE: an error leaves RCOUNT = 0 (R250); without one every result slot at or beyond
RCOUNT is 0 (R25, R38). -/
def idleRegisters (s : State) : Prop :=
  (s.errcode ≠ .ok → s.rcount = 0) ∧
  (s.errcode = .ok →
    (s.rcount.toNat ≤ 0 → s.res0 = 0) ∧ (s.rcount.toNat ≤ 1 → s.res1 = 0) ∧
    (s.rcount.toNat ≤ 2 → s.res2 = 0) ∧ (s.rcount.toNat ≤ 3 → s.res3 = 0))

/-- The invariant of the CORE: RCOUNT is 0 to 4 (R38), and the registers agree with the phase. -/
def Inv (s : State) : Prop :=
  s.rcount.toNat ≤ 4 ∧ (s.phase = .idle → idleRegisters s) ∧
    ∀ snap draws, s.phase = .busy snap draws → busyRegisters s snap ∧ drawsTaken snap draws

/-! ## Runs -/

/-- `k` steps of the machine, stopping at the first fault or refusal. -/
def runSteps (k : Nat) (s : State) : Host.Outcome State Fault Refusal := Sys2Proof.core.run k s

/-- Reserved offsets (R63): the three reserved ranges, and words K..63 of each operand and result window. -/
def reservedOffset (k : Nat) (off : Offset) : Prop :=
  (0x010 ≤ off.toNat ∧ off.toNat < 0x100) ∨ (0x500 ≤ off.toNat ∧ off.toNat < 0x800) ∨ 0xC00 ≤ off.toNat ∨
    (((0x100 ≤ off.toNat ∧ off.toNat < 0x500) ∨ (0x800 ≤ off.toNat ∧ off.toNat < 0xC00)) ∧
      k ≤ off.toNat % 0x100 / 4)

/-- The turn `ev` is a reset: the `rst` input, or a legal CTRL write with bit 1 = 1 (R290). -/
def isReset {w : Nat} (c : Config) (ev : Event w) : Prop :=
  ev = .rst ∨ ∃ v : Word, v.getLsbD 1 = true ∧ ev = .access (Access.regWrite c 0x004 v)

end Sys2Proof.Machine
end

