-- ==== Sys2Proof/Certificates/Slice0/Obligations.lean ====
section
/-! DEFINITION. The statements about the CORE, for the provers. A running command is a state whose phase is BUSY; its
operands are the signed values of its snapshot. A host access is the first entry of `inputs`. -/

section

open Sys2Proof Sys2Proof.Machine

/-! ## Command words -/

/-- R91, words written out bit by bit from its table. A sanity statement. -/
def Obligations.SpecWordsDecodeToTheirCommands : Prop :=
  decode 0b00000000000000000000000000000001 = .ok .modexp ∧
  decode 0b00000000000000000000000000000011 = .ok .crt ∧
  decode 0b00000000000000000000000000000100 = .ok .fermat ∧
  decode 0b00000000000000000000000000000110 = .ok .rsqrt ∧
  decode 0b00000000000000000000000000000111 = .ok .smooth ∧
  decodeBytes [0x02, 0x00, 0x00, 0x00] = .ok (.egcd, []) ∧
  decodeBytes [0x05, 0x00, 0x00, 0x00, 0xFF] = .ok (.msqrt, [0xFF])

/-- R91: a word selects a command exactly when it is the command's word 0x000000NN. -/
def Obligations.WordSelectsCommandExactlyWhenEqual : Prop :=
  ∀ (w : Word) (i : Instr), decode w = .ok i ↔ w =
    match i with
    | .modexp => 0x00000001
    | .egcd => 0x00000002
    | .crt => 0x00000003
    | .fermat => 0x00000004
    | .msqrt => 0x00000005
    | .rsqrt => 0x00000006
    | .smooth => 0x00000007

/-- R92: a word is valid when v[31:8] = 0 and v[7:0] is 0x01 to 0x07. An engine's turn of `inputs` runs the command of a
valid word and completes any other with BADCMD, whatever the operands. Every word is one or the other. With an empty
list: EmptyInputsAreTheEnginesTurn. -/
def Obligations.ValidWordsRunAndOthersAreBadCommands : Prop :=
  ∀ (s : State) (snap : Snapshot s.cfg.width) (draws : List (BitVec s.cfg.width)) (rest : List (Event s.cfg.width)),
    s.phase = .busy snap draws → s.inputs = .engine :: rest →
    ((snap.word.extractLsb' 8 24 = 0 ∧ 1 ≤ (snap.word.extractLsb' 0 8).toNat ∧
        (snap.word.extractLsb' 0 8).toNat ≤ 7) →
      ∃ i, decode snap.word = .ok i ∧ step s = exec i { s with inputs := rest }) ∧
    (¬ (snap.word.extractLsb' 8 24 = 0 ∧ 1 ≤ (snap.word.extractLsb' 0 8).toNat ∧
        (snap.word.extractLsb' 0 8).toNat ≤ 7) →
      step s = .next (State.withError { s with inputs := rest } .badCmd))

/-- Decode and encode agree on bytes: every command is well formed, and a list of bytes decodes to a command and a rest
exactly when it is the command's four bytes, lanes in ascending order (R65, R91), followed by the rest. -/
def Obligations.BytesDecodeExactlyFromEncoding : Prop :=
  ∀ (bs rest : List Byte) (i : Instr),
    i.wellFormed = true ∧ (decodeBytes bs = .ok (i, rest) ↔ bs = encodeBytes i ++ rest)

/-! ## Steps -/

/-- When the engine has the turn, by the first entry of `inputs` or because nothing is to come from outside, and the
snapshot's word decodes to i, the step is exec of i. DESIGN CHOICE of log entry 2: an empty list is the engine's turn. -/
def Obligations.StepRunsTheDecodedCommand : Prop :=
  ∀ (s : State) (snap : Snapshot s.cfg.width) (draws : List (BitVec s.cfg.width)) (i : Instr),
    s.phase = .busy snap draws → decode snap.word = .ok i →
    (s.inputs = [] → step s = exec i s) ∧
    (∀ rest, s.inputs = .engine :: rest → step s = exec i { s with inputs := rest })

/-- The host's fetch: withFetchWord puts a command so that the very next step is its exec, on the state in which the
word has been accepted (log entry 8, the model's own). -/
def Obligations.FetchWordRunsNext : Prop :=
  ∀ (s : State) (nbits w : Nat) (i : Instr), decodeTableWord nbits w = some i →
    step (s.withFetchWord nbits w) = exec i (accept (tableWord nbits w) s)

/-- The machine stops only at a bus access outside the window, which is the model's own fault (log entry 7), and no
instruction is refused. -/
def Obligations.OnlyAccessesOutsideTheWindowStop : Prop :=
  ∀ s : State, (∃ t, step s = .next t) ∨
    (step s = .fault .outsideWindow ∧ ∃ a rest, s.inputs = .access a :: rest ∧
      match a with
      | .read addr _ => addr < s.cfg.base ∨ s.cfg.base + 4096 ≤ addr
      | .write addr _ _ _ => addr < s.cfg.base ∨ s.cfg.base + 4096 ≤ addr)

/-- No step changes the configuration: K and BASE are fixed (R5, R60), and so is ID (R27). -/
def Obligations.ConfigurationNeverChanges : Prop :=
  ∀ s t : State, step s = .next t → t.cfg = s.cfg ∧ idWord t.cfg = idWord s.cfg

/-- An IDLE engine does no work: the engine's turn, and exec of any command, leaves every register alone (R275 for the
engine's turn). That an empty list is the engine's turn is the model's choice (log entry 2, DESIGN CHOICE), and so is
exec on an IDLE state (log entry 5, DESIGN CHOICE). -/
def Obligations.IdleEngineDoesNothing : Prop :=
  ∀ s : State, s.phase = .idle →
    (s.inputs = [] → step s = .next s) ∧
    (∀ rest, s.inputs = .engine :: rest → step s = .next { s with inputs := rest }) ∧
    ∀ i, exec i s = .next s

/-! ## Accept and completion -/

/-- R110: a CMD write while IDLE, valid word or not, is accepted in the same step. OVR, CTRL, OPA..OPD and RES0..RES3
are unchanged, and irq drops. -/
def Obligations.CommandWriteWhileIdleIsAccepted : Prop :=
  ∀ (s : State) (v : Word) (rest : List (Event s.cfg.width)),
    s.phase = .idle → s.inputs = .access (Access.regWrite s.cfg 0x008 v) :: rest →
    let t : State := { s with
      cmd := v
      phase := .busy { word := v, opa := s.opa, opb := s.opb, opc := s.opc, opd := s.opd } []
      done := false
      errcode := .ok
      rcount := 0
      inputs := rest
      resp := .writeOk }
    step s = .next t ∧ busyBit t = true ∧ irq t = false

/-- R111: a CMD write while BUSY is ignored, and its one effect is OVR. -/
def Obligations.CommandWriteWhileBusyOnlySetsOverrun : Prop :=
  ∀ (s : State) (snap : Snapshot s.cfg.width) (draws : List (BitVec s.cfg.width)) (v : Word)
    (rest : List (Event s.cfg.width)),
    s.phase = .busy snap draws → s.inputs = .access (Access.regWrite s.cfg 0x008 v) :: rest →
    step s = .next { s with ovr := true, inputs := rest, resp := .writeOk }

/-- R113 and R115, for the at most four results of R112: results that all fit W bits are written at once, unused slots
with zero, RCOUNT is their number; if one does not fit the outcome is RANGE; an error leaves RES0..RES3 alone. -/
def Obligations.CompletionStepWritesTheOutcome : Prop :=
  ∀ (s : State) (vs : List Int) (c : ErrCode), vs.length ≤ 4 →
    ((∀ v ∈ vs, -(2 ^ (s.cfg.width - 1) : Int) ≤ v ∧ v ≤ 2 ^ (s.cfg.width - 1) - 1) →
      ∃ k : BitVec 3, k.toNat = vs.length ∧
        complete (.ok vs) s = s.withResults k (vs.getD 0 0) (vs.getD 1 0) (vs.getD 2 0) (vs.getD 3 0)) ∧
    ((∃ v ∈ vs, ¬ (-(2 ^ (s.cfg.width - 1) : Int) ≤ v ∧ v ≤ 2 ^ (s.cfg.width - 1) - 1)) →
      complete (.ok vs) s = s.withError .range) ∧
    complete (.fail c) s = s.withError c

/-- R119 and the frame of every command: exec changes nothing but RES0..RES3, RCOUNT, ERRCODE, DONE and the phase. The
operand registers, CTRL, CMD, OVR and every window offset but STATUS and the results read as before. The same holds of
an engine's turn of `inputs`, the completion of an illegal word among them. With an empty list:
EmptyInputsAreTheEnginesTurn. -/
def Obligations.CommandsChangeOnlyResultsAndStatus : Prop :=
  (∀ (i : Instr) (s t : State), exec i s = .next t →
    (∃ r0 r1 r2 r3 k c d p, t = { s with
      res0 := r0, res1 := r1, res2 := r2, res3 := r3, rcount := k, errcode := c, done := d, phase := p }) ∧
    ∀ off : Offset, off.toNat % 4 = 0 → off ≠ 0x00C → ¬ (0x800 ≤ off.toNat ∧ off.toNat < 0xC00) →
      regRead off t = regRead off s) ∧
  ∀ (s t : State) (rest : List (Event s.cfg.width)), s.inputs = .engine :: rest → step s = .next t →
    ∃ r0 r1 r2 r3 k c d p, t = { s with
      res0 := r0, res1 := r1, res2 := r2, res3 := r3, rcount := k, errcode := c, done := d, phase := p, inputs := rest }

/-- R250: an error completion sets ERRCODE to the code, RCOUNT to 0 and DONE to 1, returns to IDLE, and leaves all else
alone. Said of every command that was running and ends with a code. -/
def Obligations.ErrorCompletionKeepsResults : Prop :=
  ∀ (i : Instr) (s t : State) (snap : Snapshot s.cfg.width) (draws : List (BitVec s.cfg.width)),
    s.phase = .busy snap draws → s.errcode = .ok → exec i s = .next t → t.errcode ≠ .ok →
    t = { s with rcount := 0, errcode := t.errcode, done := true, phase := .idle }

/-- R117: the outcome is a function of the snapshot and, for FERMAT, the draws: two states of one configuration with the
same phase wait both, or get the same results, or the same error, whatever their other registers hold. -/
def Obligations.OutcomeDependsOnSnapshotAndDrawsOnly : Prop :=
  ∀ (i : Instr) (s : State) (snap : Snapshot s.cfg.width) (draws draws' : List (BitVec s.cfg.width))
    (a b c d r0 r1 r2 r3 : BitVec s.cfg.width) (x p o : Bool) (w : Word) (e : ErrCode) (k : BitVec 3)
    (ins : List (Event s.cfg.width)) (r : BusResponse),
    s.phase = .busy snap draws → (i = .fermat → draws' = draws) →
    let t : State := { s with
      opa := a, opb := b, opc := c, opd := d, res0 := r0, res1 := r1, res2 := r2, res3 := r3, ie := x, cmd := w,
      done := p, ovr := o, errcode := e, rcount := k, phase := .busy snap draws', inputs := ins, resp := r }
    (exec i s = .next s ∧ exec i t = .next t) ∨
    (∃ vs : List Int, exec i s = .next (s.withRoots vs) ∧ exec i t = .next (t.withRoots vs)) ∨
    (∃ c, exec i s = .next (s.withError c) ∧ exec i t = .next (t.withError c))

/-- R23 and R41: an operand write while BUSY does not change the running command: writing before or after the engine's
turn ends in the same state. -/
def Obligations.OperandWriteWhileBusyCommutesWithEngine : Prop :=
  ∀ (s : State) (snap : Snapshot s.cfg.width) (draws : List (BitVec s.cfg.width)) (x : OpReg) (i : Nat) (v : Word)
    (rest : List (Event s.cfg.width)),
    s.phase = .busy snap draws → i < s.cfg.opwWords →
    let w : Event s.cfg.width := .access (Access.regWrite s.cfg (RegName.operand x i).offset v)
    runSteps 2 { s with inputs := w :: .engine :: rest } = runSteps 2 { s with inputs := .engine :: w :: rest }

/-! ## MODEXP, EGCD, CRT -/

/-- R140: modexp_fn(b, e, m) is b^e mod m. That it is (b mod m)^e mod m and in [0, m) is R140's sentence that the spec
marks as derived. -/
def Obligations.ModexpFunctionIsPowerModulo : Prop :=
  ∀ (b : Int) (e : Nat) (m : Int), 1 ≤ m →
    modexpFn b e m = (b % m) ^ e % m ∧ modexpFn b e m = b ^ e % m ∧ 0 ≤ modexpFn b e m ∧ modexpFn b e m < m

/-- R145: MODEXP. NEG_EXPONENT first, then BAD_MODULUS, else b^e mod m in RES0 with RCOUNT = 1. That RANGE cannot occur,
on which the last clause rests, is R145's sentence that the spec marks as derived (from R140 and R8). -/
def Obligations.ModexpCompletes : Prop :=
  ∀ (s : State) (snap : Snapshot s.cfg.width) (draws : List (BitVec s.cfg.width)), s.phase = .busy snap draws →
    (sval snap.opb < 0 → exec .modexp s = .next (s.withError .negExponent)) ∧
    (0 ≤ sval snap.opb → sval snap.opc < 1 → exec .modexp s = .next (s.withError .badModulus)) ∧
    (0 ≤ sval snap.opb → 1 ≤ sval snap.opc →
      exec .modexp s =
        .next (s.withResults 1 (sval snap.opa ^ (sval snap.opb).toNat % sval snap.opc) 0 0 0))

/-- R141: egcd_nat obeys its recursion: (a, 1, 0) for b = 0, else (g, y1, x1 − (a div b)·y1) of egcd_nat(b, a mod b).
The spec gives the recursive step as its own general knowledge (log entry 13). -/
def Obligations.EgcdNatObeysItsRecursion : Prop :=
  (∀ a, egcdNat a 0 = (a, 1, 0)) ∧
  ∀ a b g x1 y1, 0 < b → egcdNat b (a % b) = (g, x1, y1) →
    egcdNat a b = (g, y1, x1 - ((a / b : Nat) : Int) * y1)

/-- R142: egcd_fn runs egcd_nat on |a| and |b| and negates the coefficient of a negative operand; so g = gcd(a, b) ≥ 0
and a·x + b·y = g; (a, 1, 0) for a ≥ 0, b = 0; (−a, −1, 0) for a < 0, b = 0; (0, 1, 0) for both 0. -/
def Obligations.EgcdFunctionGivesGcdAndBezout : Prop :=
  ∀ (a b : Int) (g : Nat) (x y : Int), egcdNat a.natAbs b.natAbs = (g, x, y) →
    egcdFn a b = ((g : Int), if a < 0 then -x else x, if b < 0 then -y else y) ∧
    (egcdFn a b).1 = Int.gcd a b ∧
    a * (egcdFn a b).2.1 + b * (egcdFn a b).2.2 = (egcdFn a b).1 ∧
    (0 ≤ a → b = 0 → egcdFn a b = (a, 1, 0)) ∧ (a < 0 → b = 0 → egcdFn a b = (-a, -1, 0))

/-- R150: EGCD writes (g, x, y) of egcd_fn with RCOUNT = 3, or reports RANGE where one of them does not fit. -/
def Obligations.EgcdCompletes : Prop :=
  ∀ (s : State) (snap : Snapshot s.cfg.width) (draws : List (BitVec s.cfg.width)) (g x y : Int),
    s.phase = .busy snap draws → egcdFn (sval snap.opa) (sval snap.opb) = (g, x, y) →
    ((fitsW s.cfg.width g = true ∧ fitsW s.cfg.width x = true ∧ fitsW s.cfg.width y = true) →
      exec .egcd s = .next (s.withResults 3 g x y 0)) ∧
    (¬ (fitsW s.cfg.width g = true ∧ fitsW s.cfg.width x = true ∧ fitsW s.cfg.width y = true) →
      exec .egcd s = .next (s.withError .range))

/-- R143: crt_fn is the unique x in [0, p·q) with x ≡ a (mod p) and x ≡ b (mod q). -/
def Obligations.CrtFunctionIsTheUniqueResidue : Prop :=
  ∀ a b p q : Int, 1 ≤ p → 1 ≤ q → Int.gcd p q = 1 →
    ∀ x : Int, (0 ≤ x ∧ x < p * q ∧ x % p = a % p ∧ x % q = b % q) ↔ x = crtFn a b p q

/-- R155 and R144: CRT. BAD_MODULUS, then NOT_COPRIME, then the unique residue in RES0 with RCOUNT = 1, or RANGE where
it exceeds 2^(W−1)−1. -/
def Obligations.CrtCompletes : Prop :=
  ∀ (s : State) (snap : Snapshot s.cfg.width) (draws : List (BitVec s.cfg.width)), s.phase = .busy snap draws →
    (sval snap.opc < 1 ∨ sval snap.opd < 1 → exec .crt s = .next (s.withError .badModulus)) ∧
    (1 ≤ sval snap.opc → 1 ≤ sval snap.opd → Int.gcd (sval snap.opc) (sval snap.opd) ≠ 1 →
      exec .crt s = .next (s.withError .notCoprime)) ∧
    (1 ≤ sval snap.opc → 1 ≤ sval snap.opd → Int.gcd (sval snap.opc) (sval snap.opd) = 1 →
      ∀ x : Int, 0 ≤ x → x < sval snap.opc * sval snap.opd → x % sval snap.opc = sval snap.opa % sval snap.opc →
        x % sval snap.opd = sval snap.opb % sval snap.opd →
        (x ≤ 2 ^ (s.cfg.width - 1) - 1 → exec .crt s = .next (s.withResults 1 x 0 0 0)) ∧
        (2 ^ (s.cfg.width - 1) - 1 < x → exec .crt s = .next (s.withError .range)))

/-! ## FERMAT -/

/-- R182: for an odd n ≥ 5 the witness of a draw r is 2 + (uval(r) mod (n − 3)), it is in [2, n−2], and every value of
that range is the witness of some draw. -/
def Obligations.WitnessesReachExactlyTheRange : Prop :=
  ∀ (w : Nat) (x : BitVec w), 5 ≤ sval x → sval x % 2 = 1 →
    (∀ r : BitVec w, witnessOf (sval x) r = 2 + (r.toNat : Int) % (sval x - 3)) ∧
    ∀ a : Int, (∃ r : BitVec w, witnessOf (sval x) r = a) ↔ 2 ≤ a ∧ a ≤ sval x - 2

/-- R185: FERMAT. BAD_ROUNDS first; the cases without a draw; the first failing trial ends it with (0, its number, its
witness); `rounds` passing trials end it with (1, rounds, the last witness). Before that it waits, which is a next state
with nothing changed: log entry 6 (DEDUCED from R180 and R181). That RANGE cannot occur is R185's sentence that the spec
marks as derived. -/
def Obligations.FermatCompletes : Prop :=
  ∀ (s : State) (snap : Snapshot s.cfg.width) (draws : List (BitVec s.cfg.width)), s.phase = .busy snap draws →
    (sval snap.opb < 1 → exec .fermat s = .next (s.withError .badRounds)) ∧
    (1 ≤ sval snap.opb → sval snap.opa < 2 → exec .fermat s = .next (s.withResults 3 0 0 0 0)) ∧
    (1 ≤ sval snap.opb → sval snap.opa = 2 ∨ sval snap.opa = 3 →
      exec .fermat s = .next (s.withResults 3 1 0 0 0)) ∧
    (1 ≤ sval snap.opb → 4 ≤ sval snap.opa → sval snap.opa % 2 = 0 →
      exec .fermat s = .next (s.withResults 3 0 0 0 0)) ∧
    (1 ≤ sval snap.opb → 5 ≤ sval snap.opa → sval snap.opa % 2 = 1 →
      (∀ (ps : List (BitVec s.cfg.width)) (r : BitVec s.cfg.width) (rest : List (BitVec s.cfg.width)),
        draws = ps ++ r :: rest → (ps.length : Int) < sval snap.opb →
        (∀ u ∈ ps, trialPasses (sval snap.opa) u) → ¬ trialPasses (sval snap.opa) r →
        exec .fermat s = .next (s.withResults 3 0 (ps.length + 1) (2 + (r.toNat : Int) % (sval snap.opa - 3)) 0)) ∧
      (∀ (ps : List (BitVec s.cfg.width)) (r : BitVec s.cfg.width) (rest : List (BitVec s.cfg.width)),
        draws = ps ++ r :: rest → (ps.length : Int) + 1 = sval snap.opb →
        (∀ u ∈ ps, trialPasses (sval snap.opa) u) → trialPasses (sval snap.opa) r →
        exec .fermat s =
          .next (s.withResults 3 1 (sval snap.opb) (2 + (r.toNat : Int) % (sval snap.opa - 3)) 0)) ∧
      ((draws.length : Int) < sval snap.opb → (∀ u ∈ draws, trialPasses (sval snap.opa) u) →
        exec .fermat s = .next s))

/-- R180 and R42: wit_ready is 1 exactly while a FERMAT command is BUSY with rounds ≥ 1, an odd n ≥ 5, every draw so far
passing and fewer than `rounds` draws. An offered value is appended to the draws then, and otherwise neither consumed
nor stored. -/
def Obligations.DrawsAreTakenExactlyWhenNeeded : Prop :=
  (∀ s : State, s.phase = .idle → witReady s = false) ∧
  (∀ (s : State) (snap : Snapshot s.cfg.width) (draws : List (BitVec s.cfg.width)), s.phase = .busy snap draws →
    (witReady s = true ↔ decode snap.word = .ok .fermat ∧ 1 ≤ sval snap.opb ∧ 5 ≤ sval snap.opa ∧
      sval snap.opa % 2 = 1 ∧ (draws.length : Int) < sval snap.opb ∧ ∀ u ∈ draws, trialPasses (sval snap.opa) u) ∧
    ∀ r rest, s.inputs = .witness r :: rest → witReady s = true →
      step s = .next { s with phase := .busy snap (draws ++ [r]), inputs := rest }) ∧
  (∀ (s : State) (r : BitVec s.cfg.width) (rest : List (Event s.cfg.width)),
    s.inputs = .witness r :: rest → witReady s = false → step s = .next { s with inputs := rest })

/-- R181: while a draw is waited for, only a draw or a reset ends the wait: any other turn leaves the phase, the
snapshot and the draws as they are, so BUSY stays 1, and no result and no completion appears. -/
def Obligations.OnlyDrawOrResetEndsTheWait : Prop :=
  ∀ s t : State, witReady s = true → step s = .next t →
    (∃ r rest, s.inputs = .witness r :: rest) ∨ (∃ ev rest, s.inputs = ev :: rest ∧ isReset s.cfg ev) ∨
    ∃ a b c d x p o ins r, t = { s with
      opa := a, opb := b, opc := c, opd := d, ie := x, done := p, ovr := o, inputs := ins, resp := r }

/-- R187: where the draws were each taken while waited for, a FERMAT that completes without error has consumed exactly
RES1 draws. -/
def Obligations.FermatConsumesExactlyRes1Draws : Prop :=
  ∀ (s t : State) (snap : Snapshot s.cfg.width) (draws : List (BitVec s.cfg.width)), Inv s →
    s.phase = .busy snap draws → decode snap.word = .ok .fermat → exec .fermat s = .next t → busyBit t = false →
    t.errcode = .ok → sval t.res1 = draws.length

/-- R42: while BUSY under the invariant, draws exist for FERMAT only and are at most the rounds operand. -/
def Obligations.DrawsAreAtMostRounds : Prop :=
  ∀ (s : State) (snap : Snapshot s.cfg.width) (draws : List (BitVec s.cfg.width)), Inv s →
    s.phase = .busy snap draws → draws ≠ [] →
    decode snap.word = .ok .fermat ∧ (draws.length : Int) ≤ sval snap.opb

/-- A prime n passes whatever the draws: FERMAT with rounds ≥ 1 never answers verdict 0 for it (from R185 and Fermat's
little theorem). -/
def Obligations.FermatNeverRejectsAPrime : Prop :=
  ∀ (s t : State) (snap : Snapshot s.cfg.width) (draws : List (BitVec s.cfg.width)),
    s.phase = .busy snap draws → 1 ≤ sval snap.opb → 2 ≤ sval snap.opa → (sval snap.opa).toNat.Prime →
    exec .fermat s = .next t → busyBit t = false → t.errcode = .ok ∧ sval t.res0 = 1

/-! ## MSQRT, RSQRT -/

/-- R10 and R200: isPrime is exact. -/
def Obligations.PrimalityCheckIsExact : Prop :=
  ∀ v : Int, isPrime v = true ↔ 2 ≤ v ∧ ∀ d : Int, 1 < d → d < v → ¬ d ∣ v

/-- R10: sortAsc answers the elements of a set as the strictly ascending list of them. -/
def Obligations.SortAscIsTheAscendingListOfTheSet : Prop :=
  ∀ l : List Int, (sortAsc l).Pairwise (· < ·) ∧ (∀ v, v ∈ sortAsc l ↔ v ∈ l) ∧
    ∀ m : List Int, m.Pairwise (· < ·) → (∀ v, v ∈ m ↔ v ∈ l) → m = sortAsc l

/-- R202: msqrt_fn by Euler's criterion and the exponent (p + 1) div 4, the pair ascending; with two elements both
square to a and they differ. -/
def Obligations.SquareRootFunctionFollowsEuler : Prop :=
  ∀ a p x : Int, classOK p = true → isPrime p = true → x = (a % p) ^ ((p + 1) / 4).toNat % p →
    (a % p = 0 → msqrtFn a p = [0]) ∧
    (a % p ≠ 0 → (a % p) ^ ((p - 1) / 2).toNat % p ≠ 1 → msqrtFn a p = []) ∧
    (a % p ≠ 0 → (a % p) ^ ((p - 1) / 2).toNat % p = 1 →
      msqrtFn a p = (if x < p - x then [x, p - x] else [p - x, x]) ∧ x ≠ p - x ∧
      x * x % p = a % p ∧ (p - x) * (p - x) % p = a % p)

/-- R205: MSQRT. WRONG_CLASS, then NOT_PRIME, else the list of msqrt_fn with RCOUNT its length. That the list is exactly
the square roots of a modulo p in [0, p) rests on R202's sentence that the spec marks as derived and on what R211 marks
as general knowledge; that RANGE cannot occur is marked as derived in R205. -/
def Obligations.MsqrtCompletes : Prop :=
  ∀ (s : State) (snap : Snapshot s.cfg.width) (draws : List (BitVec s.cfg.width)), s.phase = .busy snap draws →
    (¬ (3 ≤ sval snap.opb ∧ sval snap.opb % 4 = 3) → exec .msqrt s = .next (s.withError .wrongClass)) ∧
    (3 ≤ sval snap.opb → sval snap.opb % 4 = 3 → ¬ (sval snap.opb).toNat.Prime →
      exec .msqrt s = .next (s.withError .notPrime)) ∧
    (3 ≤ sval snap.opb → sval snap.opb % 4 = 3 → (sval snap.opb).toNat.Prime →
      exec .msqrt s = .next (s.withRoots (msqrtFn (sval snap.opa) (sval snap.opb))) ∧
      (msqrtFn (sval snap.opa) (sval snap.opb)).Pairwise (· < ·) ∧
      (msqrtFn (sval snap.opa) (sval snap.opb)).length ≤ 2 ∧
      ∀ x, x ∈ msqrtFn (sval snap.opa) (sval snap.opb) ↔
        0 ≤ x ∧ x < sval snap.opb ∧ x * x % sval snap.opb = sval snap.opa % sval snap.opb)

/-- R210: RSQRT. The checks in their order, else the list R with RCOUNT its length, |Rp|·|Rq|: 0, 1, 2 or 4; RANGE where
a root exceeds 2^(W−1)−1. That R is exactly the square roots of c modulo p·q is the full candidate set of R211, which
rests on what R211 marks as general knowledge; that the roots are distinct is marked as derived in R210. -/
def Obligations.RsqrtCompletes : Prop :=
  ∀ (s : State) (snap : Snapshot s.cfg.width) (draws : List (BitVec s.cfg.width)) (c p q : Int),
    s.phase = .busy snap draws → c = sval snap.opa → p = sval snap.opb → q = sval snap.opc →
    (¬ (3 ≤ p ∧ p % 4 = 3 ∧ 3 ≤ q ∧ q % 4 = 3) → exec .rsqrt s = .next (s.withError .wrongClass)) ∧
    (3 ≤ p → p % 4 = 3 → 3 ≤ q → q % 4 = 3 → p = q → exec .rsqrt s = .next (s.withError .equalPrimes)) ∧
    (3 ≤ p → p % 4 = 3 → 3 ≤ q → q % 4 = 3 → p ≠ q → ¬ (p.toNat.Prime ∧ q.toNat.Prime) →
      exec .rsqrt s = .next (s.withError .notPrime)) ∧
    (3 ≤ p → p % 4 = 3 → 3 ≤ q → q % 4 = 3 → p ≠ q → p.toNat.Prime → q.toNat.Prime →
      (rsqrtFn c p q).Pairwise (· < ·) ∧
      (∀ x, x ∈ rsqrtFn c p q ↔ 0 ≤ x ∧ x < p * q ∧ x * x % (p * q) = c % (p * q)) ∧
      (∀ x, x ∈ rsqrtFn c p q ↔ ∃ rp ∈ msqrtFn c p, ∃ rq ∈ msqrtFn c q, x = crtFn rp rq p q) ∧
      (rsqrtFn c p q).length = (msqrtFn c p).length * (msqrtFn c q).length ∧
      ((rsqrtFn c p q).length = 0 ∨ (rsqrtFn c p q).length = 1 ∨ (rsqrtFn c p q).length = 2 ∨
        (rsqrtFn c p q).length = 4) ∧
      ((∀ x ∈ rsqrtFn c p q, x ≤ 2 ^ (s.cfg.width - 1) - 1) →
        exec .rsqrt s = .next (s.withRoots (rsqrtFn c p q))) ∧
      ((∃ x ∈ rsqrtFn c p q, 2 ^ (s.cfg.width - 1) - 1 < x) → exec .rsqrt s = .next (s.withError .range)))

/-- R211: for prime p ≠ q, both ≡ 3 (mod 4), and 0 ≤ m < p·q, RSQRT of m·m mod p·q has m among its results: m is in one
of the first RCOUNT result registers. The product is taken to fit, so that RANGE does not apply (R210). The spec marks the claim as derived. -/
def Obligations.RabinRoundTripRecoversPlaintext : Prop :=
  ∀ (s : State) (snap : Snapshot s.cfg.width) (draws : List (BitVec s.cfg.width)) (p q m : Int),
    s.phase = .busy snap draws → p = sval snap.opb → q = sval snap.opc → 3 ≤ p → p % 4 = 3 → 3 ≤ q → q % 4 = 3 →
    p ≠ q → p.toNat.Prime → q.toNat.Prime → p * q ≤ 2 ^ (s.cfg.width - 1) → 0 ≤ m → m < p * q →
    sval snap.opa = m * m % (p * q) →
    ∃ t, exec .rsqrt s = .next t ∧ t.errcode = .ok ∧ busyBit t = false ∧
      ((0 < t.rcount.toNat ∧ sval t.res0 = m) ∨ (1 < t.rcount.toNat ∧ sval t.res1 = m) ∨
        (2 < t.rcount.toNat ∧ sval t.res2 = m) ∨ (3 < t.rcount.toNat ∧ sval t.res3 = m))

/-! ## SMOOTH -/

/-- R235 and R230: SMOOTH. BAD_BOUND for a negative bound; else the product, over every prime p ≤ bound, of the largest
power of p not exceeding the bound, in RES0 with RCOUNT = 1, or RANGE where it exceeds 2^(W−1)−1. -/
def Obligations.SmoothCompletes : Prop :=
  ∀ (s : State) (snap : Snapshot s.cfg.width) (draws : List (BitVec s.cfg.width)) (l : Int),
    s.phase = .busy snap draws →
    l = ((∏ p ∈ (Finset.range ((sval snap.opa).toNat + 1)).filter Nat.Prime,
      p ^ Nat.log p (sval snap.opa).toNat : Nat) : Int) →
    (sval snap.opa < 0 → exec .smooth s = .next (s.withError .badBound)) ∧
    (0 ≤ sval snap.opa → l ≤ 2 ^ (s.cfg.width - 1) - 1 → exec .smooth s = .next (s.withResults 1 l 0 0 0)) ∧
    (0 ≤ sval snap.opa → 2 ^ (s.cfg.width - 1) - 1 < l → exec .smooth s = .next (s.withError .range))

/-- The thresholds of R235: at W = 32 the bounds 0..22 fit and 23 and above give RANGE; at W = 64 the bounds 0..42 fit
and 43 and above give RANGE. -/
def Obligations.SmoothThresholdsAtTheSpecWidths : Prop :=
  ∀ (s : State) (snap : Snapshot s.cfg.width) (draws : List (BitVec s.cfg.width)), s.phase = .busy snap draws →
    (s.cfg.opwWords = 1 →
      (0 ≤ sval snap.opa → sval snap.opa ≤ 22 →
        ∃ l : Int, exec .smooth s = .next (s.withResults 1 l 0 0 0) ∧ (sval snap.opa = 22 → l = 232792560)) ∧
      (23 ≤ sval snap.opa → exec .smooth s = .next (s.withError .range))) ∧
    (s.cfg.opwWords = 2 →
      (0 ≤ sval snap.opa → sval snap.opa ≤ 42 →
        ∃ l : Int, exec .smooth s = .next (s.withResults 1 l 0 0 0) ∧
          (sval snap.opa = 42 → l = 219060189739591200)) ∧
      (43 ≤ sval snap.opa → exec .smooth s = .next (s.withError .range)))

/-- smooth_fn(B) equals lcm(1, 2, …, B), which R230 says from general knowledge. -/
def Obligations.SmoothFunctionIsTheLcm : Prop :=
  ∀ b : Nat, smoothFn b = (Finset.Icc 1 b).lcm id

/-! ## The register window -/

/-- R24 and the register map of R21 for reads: a legal read answers the register word its offset names and changes
nothing but the port's answer. -/
def Obligations.ReadsAnswerTheMappedRegister : Prop :=
  ∀ (s : State) (off : Offset) (rest : List (Event s.cfg.width)),
    off.toNat % 4 = 0 → s.inputs = .access (Access.regRead s.cfg off) :: rest →
    ∃ v : Word, step s = .next { s with inputs := rest, resp := .readOk v } ∧
      (off.toNat = 0x000 → v = idWord s.cfg) ∧
      (off.toNat = 0x004 → v = if s.ie then 1 else 0) ∧
      (off.toNat = 0x008 → v = s.cmd) ∧
      (off.toNat = 0x00C → v = statusWord s) ∧
      (∀ x i, i < s.cfg.opwWords → off.toNat = operandBase x + 4 * i →
        v = (operand s x).extractLsb' (32 * i) 32) ∧
      (∀ j i, i < s.cfg.opwWords → off.toNat = resultBase j + 4 * i →
        v = (result s j).extractLsb' (32 * i) 32) ∧
      (reservedOffset s.cfg.opwWords off → v = 0)

/-- R63: a read of a reserved offset answers 0 and a write is ignored, without a bus error; so are writes to ID and to
RES0..RES3. -/
def Obligations.ReservedOffsetsReadZeroAndIgnoreWrites : Prop :=
  ∀ (s : State) (off : Offset) (rest : List (Event s.cfg.width)), off.toNat % 4 = 0 →
    (reservedOffset s.cfg.opwWords off → s.inputs = .access (Access.regRead s.cfg off) :: rest →
      step s = .next { s with inputs := rest, resp := .readOk 0 }) ∧
    (∀ v, reservedOffset s.cfg.opwWords off ∨ off = 0x000 ∨ (0x800 ≤ off.toNat ∧ off.toNat < 0xC00) →
      s.inputs = .access (Access.regWrite s.cfg off v) :: rest →
      step s = .next { s with inputs := rest, resp := .writeOk })

/-- R62 and R255: an access in the window with off mod 4 ≠ 0 or a size other than 4 bytes, or a write without all byte
enables, gets a bus error, a read the data 0, and changes no register. -/
def Obligations.IllegalAccessesGetABusErrorOnly : Prop :=
  ∀ (s : State) (addr size : Nat) (rest : List (Event s.cfg.width)),
    s.cfg.base ≤ addr → addr < s.cfg.base + 4096 →
    ((addr - s.cfg.base) % 4 ≠ 0 ∨ size ≠ 4 → s.inputs = .access (.read addr size) :: rest →
      step s = .next { s with inputs := rest, resp := .readError 0 }) ∧
    (∀ be v, (addr - s.cfg.base) % 4 ≠ 0 ∨ size ≠ 4 ∨ be ≠ 0xF → s.inputs = .access (.write addr size be v) :: rest →
      step s = .next { s with inputs := rest, resp := .writeError })

/-- R23: a write of v to word i < K of an operand register sets that word, keeps its other words and every other
register, in either phase. -/
def Obligations.OperandWriteSetsOneWord : Prop :=
  ∀ (s : State) (x : OpReg) (i : Nat) (v : Word) (rest : List (Event s.cfg.width)),
    i < s.cfg.opwWords → s.inputs = .access (Access.regWrite s.cfg (RegName.operand x i).offset v) :: rest →
    ∃ y : BitVec s.cfg.width,
      y.extractLsb' (32 * i) 32 = v ∧
      (∀ j < s.cfg.opwWords, j ≠ i → y.extractLsb' (32 * j) 32 = (operand s x).extractLsb' (32 * j) 32) ∧
      step s = .next
        (match x with
        | .a => { s with opa := y, inputs := rest, resp := .writeOk }
        | .b => { s with opb := y, inputs := rest, resp := .writeOk }
        | .c => { s with opc := y, inputs := rest, resp := .writeOk }
        | .d => { s with opd := y, inputs := rest, resp := .writeOk })

/-- R99, WR: the K writes of `WR X, v` put an integer that fits into the register, whatever it held. -/
def Obligations.HostWrPutsTheInteger : Prop :=
  ∀ (s : State) (x : OpReg) (v : Int) (rest : List (Event s.cfg.width)),
    (HostOp.wr x v).wellFormed s.cfg = true → s.inputs = hostTurns s.cfg [.wr x v] ++ rest →
    ∃ y : BitVec s.cfg.width, sval y = v ∧
      runSteps s.cfg.opwWords s = .next
        (match x with
        | .a => { s with opa := y, inputs := rest, resp := .writeOk }
        | .b => { s with opb := y, inputs := rest, resp := .writeOk }
        | .c => { s with opc := y, inputs := rest, resp := .writeOk }
        | .d => { s with opd := y, inputs := rest, resp := .writeOk })

/-- R99, RD, and R64: the K words read, put together word 0 first, name the register's signed value. -/
def Obligations.HostRdNamesTheSignedValue : Prop :=
  ∀ s : State,
    (∀ x, namedValue s.cfg ((List.range s.cfg.opwWords).map fun i => regRead (RegName.operand x i).offset s) =
      sval (operand s x)) ∧
    ∀ j, namedValue s.cfg ((List.range s.cfg.opwWords).map fun i => regRead (RegName.result j i).offset s) =
      sval (result s j)

/-- R27: ID holds VERSION 0x01 in [7:0], K in [15:8], NCMD 0x07 in [23:16], MAGIC 0x52 in [31:24]; it is 0x52070201
for K = 2; a write to it is ignored and no step changes it. -/
def Obligations.IdWordHoldsItsFields : Prop :=
  ∀ (s : State), (regRead 0x000 s).extractLsb' 0 8 = 0x01 ∧
    ((regRead 0x000 s).extractLsb' 8 8).toNat = s.cfg.opwWords ∧
    (regRead 0x000 s).extractLsb' 16 8 = 0x07 ∧ (regRead 0x000 s).extractLsb' 24 8 = 0x52 ∧
    (s.cfg.opwWords = 2 → regRead 0x000 s = 0x52070201) ∧
    (∀ v, regWrite 0x000 v s = s) ∧ ∀ t, step s = .next t → regRead 0x000 t = regRead 0x000 s

/-- R32 and R35: the bits of STATUS as read: BUSY, DONE, ERR, OVR, ERRCODE with the numbers of R37 and R251, RCOUNT, and
0 in every other place; a write reaches DONE and OVR only; the reset value is 0, at every K and BASE. -/
def Obligations.StatusWordHoldsItsFields : Prop :=
  (∀ c : Config, regRead 0x00C (State.resetOf c) = 0) ∧
  ∀ s : State,
    (regRead 0x00C s).getLsbD 0 = busyBit s ∧ (regRead 0x00C s).getLsbD 1 = s.done ∧
    (regRead 0x00C s).getLsbD 2 = decide (s.errcode ≠ .ok) ∧ (regRead 0x00C s).getLsbD 3 = s.ovr ∧
    (regRead 0x00C s).extractLsb' 4 4 = 0 ∧
    (regRead 0x00C s).extractLsb' 8 4 = (match s.errcode with
      | .ok => 0x0
      | .badCmd => 0x1
      | .negExponent => 0x2
      | .badModulus => 0x3
      | .notCoprime => 0x4
      | .wrongClass => 0x5
      | .notPrime => 0x6
      | .equalPrimes => 0x7
      | .badRounds => 0x8
      | .badBound => 0x9
      | .range => 0xA) ∧
    (regRead 0x00C s).extractLsb' 12 4 = 0 ∧ (regRead 0x00C s).extractLsb' 16 3 = s.rcount ∧
    (regRead 0x00C s).extractLsb' 19 13 = 0 ∧
    ∀ v, regWrite 0x00C v s = { s with
      done := if v.getLsbD 1 then false else s.done
      ovr := if v.getLsbD 3 then false else s.ovr }

/-- R28, R30: a CTRL write with bit 1 = 0 sets IE to bit 0 and nothing else; a read gives IE and 0 elsewhere; irq is
DONE while IE is 1 and 0 while it is 0, at once; IE is 0 at reset, at every K and BASE. -/
def Obligations.CtrlWriteSetsInterruptEnable : Prop :=
  (∀ c : Config, (State.resetOf c).ie = false) ∧
  ∀ (s : State) (v : Word) (rest : List (Event s.cfg.width)), v.getLsbD 1 = false →
    s.inputs = .access (Access.regWrite s.cfg 0x004 v) :: rest →
    ∃ t, step s = .next t ∧ t = { s with ie := v.getLsbD 0, inputs := rest, resp := .writeOk } ∧
      irq t = (s.done && v.getLsbD 0) ∧ regRead 0x004 t = if v.getLsbD 0 then 1 else 0

/-- R266: a STATUS write with bit 1 = 1 clears DONE, with bit 3 = 1 clears OVR; ERRCODE, RCOUNT, RES0..RES3 and all else
keep their values. -/
def Obligations.StatusWriteClearsDoneAndOverrunOnly : Prop :=
  ∀ (s : State) (v : Word) (rest : List (Event s.cfg.width)),
    s.inputs = .access (Access.regWrite s.cfg 0x00C v) :: rest →
    step s = .next { s with
      done := if v.getLsbD 1 then false else s.done
      ovr := if v.getLsbD 3 then false else s.ovr
      inputs := rest
      resp := .writeOk }

/-- R34: a running command's end sets DONE, unless a reset ends it; and DONE goes from 1 to 0 exactly at a STATUS write
with bit 1 = 1, at an accepted CMD write and at a reset. -/
def Obligations.DoneIsClearedExactlyByAckAcceptOrReset : Prop :=
  (∀ s t : State, busyBit s = true → step s = .next t → busyBit t = false →
    t.done = true ∨ ∃ ev rest, s.inputs = ev :: rest ∧ isReset s.cfg ev) ∧
  ∀ s t : State, s.done = true → step s = .next t →
    (t.done = false ↔ ∃ ev rest, s.inputs = ev :: rest ∧
      ((∃ v : Word, v.getLsbD 1 = true ∧ ev = .access (Access.regWrite s.cfg 0x00C v)) ∨
        (s.phase = .idle ∧ ∃ v, ev = .access (Access.regWrite s.cfg 0x008 v)) ∨ isReset s.cfg ev))

/-- R25 and R26: the result registers change only at a successful completion of a running command, or at a reset. -/
def Obligations.ResultsChangeOnlyAtCompletionOrReset : Prop :=
  ∀ s t : State, step s = .next t →
    (t.res0.toNat = s.res0.toNat ∧ t.res1.toNat = s.res1.toNat ∧ t.res2.toNat = s.res2.toNat ∧
      t.res3.toNat = s.res3.toNat) ∨
    (busyBit s = true ∧ busyBit t = false ∧ t.done = true ∧ t.errcode = .ok) ∨
    ∃ ev rest, s.inputs = ev :: rest ∧ isReset s.cfg ev

/-- R261: the interrupt follows a completion, with success or with an error, when IE is 1. -/
def Obligations.CompletionRaisesInterruptWhenEnabled : Prop :=
  ∀ (i : Instr) (s t : State), busyBit s = true → exec i s = .next t → busyBit t = false → irq t = s.ie

/-- R295: read while BUSY under the invariant, STATUS shows BUSY and OVR only: RCOUNT, ERRCODE, ERR and DONE are 0. -/
def Obligations.StatusReadsBusyOnlyWhileRunning : Prop :=
  ∀ s : State, Inv s → busyBit s = true → regRead 0x00C s = if s.ovr then 0x00000009 else 0x00000001

/-- R298: a completion between the two reads of a two-word result gives the old low word and the new high word. Said of
MODEXP, at every K ≥ 2. -/
def Obligations.TornReadSeesOldAndNewWord : Prop :=
  ∀ (s : State) (snap : Snapshot s.cfg.width) (draws : List (BitVec s.cfg.width)) (rest : List (Event s.cfg.width)),
    s.phase = .busy snap draws → decode snap.word = .ok .modexp → 2 ≤ s.cfg.opwWords → 0 ≤ sval snap.opb →
    1 ≤ sval snap.opc →
    s.inputs = .access (Access.regRead s.cfg 0x800) :: .engine :: .access (Access.regRead s.cfg 0x804) :: rest →
    ∃ t1 t2 t3, step s = .next t1 ∧ step t1 = .next t2 ∧ step t2 = .next t3 ∧
      t1.resp = .readOk (s.res0.extractLsb' 0 32) ∧
      t3.resp = .readOk ((encW s.cfg.width
        (sval snap.opa ^ (sval snap.opb).toNat % sval snap.opc)).extractLsb' 32 32)

/-! ## Reset and the invariant -/

/-- R291 and R292: a hardware reset, and a CTRL write with bit 1 = 1 whatever its other bits, in either phase, sets every
register to 0 and the phase to IDLE, and irq and wit_ready are 0 then. Two clauses are the model's: that the turns still
to come and, for `rst`, the port's last answer stay is log entry 15 (DESIGN CHOICE); that the CTRL write is answered as
done is log entry 17 (DEDUCED). -/
def Obligations.ResetFromEitherSourceClearsEverything : Prop :=
  ∀ (s : State) (rest : List (Event s.cfg.width)),
    let t : State := { s with
      opa := 0, opb := 0, opc := 0, opd := 0, res0 := 0, res1 := 0, res2 := 0, res3 := 0, ie := false, cmd := 0,
      done := false, ovr := false, errcode := .ok, rcount := 0, phase := .idle, inputs := rest }
    (s.inputs = .rst :: rest → step s = .next t) ∧
    (∀ v : Word, v.getLsbD 1 = true → s.inputs = .access (Access.regWrite s.cfg 0x004 v) :: rest →
      step s = .next { t with resp := .writeOk }) ∧
    irq t = false ∧ witReady t = false

/-- R291: what the state after reset reads as through the window, for every register the spec gives a reset value, and
its outputs and phase, at every K and BASE; State.reset is one of these states (log entry 1). -/
def Obligations.ResetStateReadsZero : Prop :=
  (∃ c : Config, State.reset = State.resetOf c) ∧
  ∀ c : Config, (State.resetOf c).phase = .idle ∧ irq (State.resetOf c) = false ∧ witReady (State.resetOf c) = false ∧
    ∀ off : Offset, off.toNat % 4 = 0 → off ≠ 0x000 → regRead off (State.resetOf c) = 0

/-- The invariant holds in every state right after reset, at every K and BASE. -/
def Obligations.ResetStateMeetsInvariant : Prop :=
  Inv State.reset ∧ ∀ c : Config, Inv (State.resetOf c)

/-- Every step keeps the invariant: RCOUNT is 0 to 4; while BUSY, CMD is the snapshot's word and DONE, ERRCODE and RCOUNT
are 0 and every draw was taken while waited for; while IDLE, an error has RCOUNT = 0 and without one the result slots
at or beyond RCOUNT are 0 (R25, R38, R41, R42, R110, R113, R250). -/
def Obligations.EveryStepKeepsTheInvariant : Prop :=
  ∀ s t : State, Inv s → step s = .next t → Inv t

/-- R306: a running command completes: when the witness source offers as many values as FERMAT still has rounds, one
step for each and one for the engine end with the phase IDLE and DONE = 1. The spec marks the claim as derived; that
the engine has the turn once the list is empty is the model's choice (log entry 2). -/
def Obligations.RunningCommandsTerminate : Prop :=
  ∀ (s : State) (snap : Snapshot s.cfg.width) (draws offers : List (BitVec s.cfg.width)),
    s.phase = .busy snap draws → s.inputs = offers.map Event.witness →
    (decode snap.word = .ok .fermat → sval snap.opb ≤ draws.length + offers.length) →
    ∃ t, runSteps (offers.length + 1) s = .next t ∧ busyBit t = false ∧ t.done = true ∧ t.inputs = []

/-! ## The empty list of turns -/

/-- With an empty list of turns the step is the engine's turn, as if the list held that one entry: DESIGN CHOICE of log
entry 2. So a running illegal word completes with BADCMD there too, and the step changes nothing but RES0..RES3, RCOUNT,
ERRCODE, DONE and the phase. -/
def Obligations.EmptyInputsAreTheEnginesTurn : Prop :=
  ∀ s : State, s.inputs = [] →
    step s = step { s with inputs := [.engine] } ∧
    (∀ (snap : Snapshot s.cfg.width) (draws : List (BitVec s.cfg.width)), s.phase = .busy snap draws →
      ¬ (snap.word.extractLsb' 8 24 = 0 ∧ 1 ≤ (snap.word.extractLsb' 0 8).toNat ∧
          (snap.word.extractLsb' 0 8).toNat ≤ 7) →
      step s = .next (s.withError .badCmd)) ∧
    ∃ r0 r1 r2 r3 k c d p, step s = .next { s with
      res0 := r0, res1 := r1, res2 := r2, res3 := r3, rcount := k, errcode := c, done := d, phase := p }

end
end

