-- ==== Sys2Proof/Laws/Arithmetic.lean ====
section
/-! SUPPORT. What modexp_fn, egcd_nat, egcd_fn and crt_fn compute, once for every caller. -/

namespace Sys2Proof.Machine

/-! ## modexp_fn (R140) -/

/-- The loop keeps r·x^e modulo m; `e` rounds of fuel are enough. -/
theorem modexpLoop_eq (fuel e : Nat) (h : e ≤ fuel) (r x m : Int) (hr : r = r % m) :
    modexpLoop fuel r x e m = r * x ^ e % m := by
  induction fuel generalizing e r x with
  | zero =>
    obtain rfl : e = 0 := by omega
    simpa [modexpLoop] using hr
  | succ fuel ih =>
    by_cases he : e = 0
    · subst he
      simpa [modexpLoop] using hr
    · have hx : (x * x % m) ^ (e / 2) ≡ x ^ (2 * (e / 2)) [ZMOD m] := by
        rw [pow_mul, pow_two]
        exact (Int.mod_modEq (x * x) m).pow _
      have hsplit := Nat.div_add_mod e 2
      simp only [modexpLoop, he, if_false]
      rw [ih (e / 2) (by omega) _ _ (by split <;> simp [← hr])]
      split
      · next hodd =>
        have : x ^ e = x * x ^ (2 * (e / 2)) := by
          rw [← pow_succ', show 2 * (e / 2) + 1 = e by omega]
        rw [this, ← mul_assoc]
        exact ((Int.mod_modEq (r * x) m).mul hx)
      · next heven =>
        have : x ^ e = x ^ (2 * (e / 2)) := by
          rw [show 2 * (e / 2) = e by omega]
        rw [this]
        exact hx.mul_left r

/-- modexp_fn(b, e, m) is b^e mod m. -/
theorem modexpFn_eq (b : Int) (e : Nat) (m : Int) : modexpFn b e m = b ^ e % m := by
  rw [modexpFn, modexpLoop_eq e e le_rfl _ _ _ (by simp)]
  exact ((Int.mod_modEq 1 m).mul ((Int.mod_modEq b m).pow e)).trans (by simp [Int.ModEq])

/-- modexp_fn answers in [0, m). -/
theorem modexpFn_bounds (b : Int) (e : Nat) (m : Int) (hm : 1 ≤ m) :
    0 ≤ modexpFn b e m ∧ modexpFn b e m < m := by
  rw [modexpFn_eq b e m]
  exact ⟨Int.emod_nonneg _ (by omega), Int.emod_lt_of_pos _ (by omega)⟩

/-! ## egcd_nat and egcd_fn (R141, R142) -/

/-- More fuel than `b` changes nothing. -/
theorem egcdLoop_fuel (fuel a b : Nat) (h : b ≤ fuel) : egcdLoop fuel a b = egcdNat a b := by
  induction fuel using Nat.strong_induction_on generalizing a b with
  | _ fuel ih =>
    rcases fuel with _ | f
    · obtain rfl : b = 0 := by omega
      rfl
    · rcases b with _ | b
      · simp [egcdNat, egcdLoop]
      · have hlt : a % (b + 1) < b + 1 := Nat.mod_lt _ (by omega)
        simp only [egcdNat, egcdLoop, Nat.succ_ne_zero, if_false]
        rw [ih f (by omega) (b + 1) _ (by omega), ih b (by omega) (b + 1) _ (by omega)]

@[simp] theorem egcdNat_zero (a : Nat) : egcdNat a 0 = (a, 1, 0) := rfl

/-- The recursive step of R141. -/
theorem egcdNat_step (a b : Nat) (h : 0 < b) :
    egcdNat a b =
      ((egcdNat b (a % b)).1, (egcdNat b (a % b)).2.2,
        (egcdNat b (a % b)).2.1 - ((a / b : Nat) : Int) * (egcdNat b (a % b)).2.2) := by
  obtain ⟨c, rfl⟩ : ∃ c, b = c + 1 := ⟨b - 1, by omega⟩
  have hlt : a % (c + 1) < c + 1 := Nat.mod_lt _ h
  rw [← egcdLoop_fuel c (c + 1) (a % (c + 1)) (by omega)]
  simp [egcdNat, egcdLoop]

/-- egcd_nat answers the gcd and Bézout coefficients of it. -/
theorem egcdNat_spec (a b : Nat) :
    (egcdNat a b).1 = Nat.gcd a b ∧
      (a : Int) * (egcdNat a b).2.1 + (b : Int) * (egcdNat a b).2.2 = (Nat.gcd a b : Int) := by
  induction b using Nat.strong_induction_on generalizing a with
  | _ b ih =>
    rcases Nat.eq_zero_or_pos b with rfl | hb
    · simp
    · obtain ⟨hg, hz⟩ := ih (a % b) (Nat.mod_lt _ hb) b
      rw [egcdNat_step a b hb]
      have hgcd : Nat.gcd b (a % b) = Nat.gcd a b := by
        rw [Nat.gcd_comm b (a % b), ← Nat.gcd_rec, Nat.gcd_comm]
      refine ⟨by simpa [hgcd] using hg, ?_⟩
      have hdm : (a : Int) = (b : Int) * ((a / b : Nat) : Int) + ((a % b : Nat) : Int) := by
        exact_mod_cast (Nat.div_add_mod a b).symm
      rw [hgcd] at hz
      rw [← hz]
      conv_lhs => rw [hdm]
      push_cast
      ring

/-- egcd_fn answers the non-negative gcd. -/
theorem egcdFn_gcd (a b : Int) : (egcdFn a b).1 = (Int.gcd a b : Int) := by
  simp [egcdFn, (egcdNat_spec a.natAbs b.natAbs).1, Int.gcd]

/-- The coefficients of egcd_fn: a·x + b·y = gcd(a, b). -/
theorem egcdFn_bezout (a b : Int) :
    a * (egcdFn a b).2.1 + b * (egcdFn a b).2.2 = (Int.gcd a b : Int) := by
  have hz := (egcdNat_spec a.natAbs b.natAbs).2
  have ha : a * (egcdFn a b).2.1 = (a.natAbs : Int) * (egcdNat a.natAbs b.natAbs).2.1 := by
    simp only [egcdFn]
    split
    · next h => rw [Int.ofNat_natAbs_of_nonpos (by omega)]; ring
    · next h => rw [Int.natAbs_of_nonneg (by omega)]
  have hb : b * (egcdFn a b).2.2 = (b.natAbs : Int) * (egcdNat a.natAbs b.natAbs).2.2 := by
    simp only [egcdFn]
    split
    · next h => rw [Int.ofNat_natAbs_of_nonpos (by omega)]; ring
    · next h => rw [Int.natAbs_of_nonneg (by omega)]
  rw [ha, hb, hz]
  simp [Int.gcd]

/-! ## crt_fn (R143) -/

/-- crt_fn answers the x in [0, p·q) with x ≡ a (mod p) and x ≡ b (mod q). -/
theorem crtFn_spec (a b p q : Int) (hp : 1 ≤ p) (hq : 1 ≤ q) (hc : Int.gcd p q = 1) :
    0 ≤ crtFn a b p q ∧ crtFn a b p q < p * q ∧
      crtFn a b p q % p = a % p ∧ crtFn a b p q % q = b % q := by
  have hz := egcdFn_bezout p q
  rw [hc] at hz
  have hpq : 0 < p * q := by positivity
  simp only [crtFn]
  generalize (egcdFn p q).2.1 = s at *
  generalize (egcdFn p q).2.2 = t at *
  refine ⟨Int.emod_nonneg _ hpq.ne', Int.emod_lt_of_pos _ hpq, ?_, ?_⟩
  · rw [Int.emod_emod_of_dvd _ (Dvd.intro _ rfl)]
    have : a * q * t + b * p * s = a + p * (b * s - a * s) := by
      linear_combination a * hz
    rw [this, Int.add_mul_emod_self_left]
  · rw [Int.emod_emod_of_dvd _ (Dvd.intro_left _ rfl)]
    have : a * q * t + b * p * s = b + q * (a * t - b * t) := by
      linear_combination b * hz
    rw [this, Int.add_mul_emod_self_left]

/-- Two integers in [0, p·q) with the same residues modulo coprime p and q are equal. -/
theorem eq_of_residues (x y p q : Int) (hc : Int.gcd p q = 1) (hx : 0 ≤ x) (hxl : x < p * q) (hy : 0 ≤ y)
    (hyl : y < p * q) (h1 : x % p = y % p) (h2 : x % q = y % q) : x = y := by
  have hd : p * q ∣ x - y :=
    (Int.isCoprime_iff_gcd_eq_one.mpr hc).mul_dvd (Int.ModEq.dvd h1.symm) (Int.ModEq.dvd h2.symm)
  have hm : x % (p * q) = y % (p * q) := (Int.modEq_of_dvd hd).symm
  rwa [Int.emod_eq_of_lt hx hxl, Int.emod_eq_of_lt hy hyl] at hm

end Sys2Proof.Machine
end

