-- ==== Sys2Proof/Laws/Decode.lean ====
section
/-! SUPPORT. The decoder inverts the encoder, on words and on bytes (spec/30_encoding.md R91, R92). -/

namespace Sys2Proof

/-- A word is its two fields (R90). -/
theorem word_eq_fields (w : Word) : w = rsvdField w ++ opcodeField w := by
  apply BitVec.eq_of_getLsbD_eq
  intro j hj
  simp only [rsvdField, opcodeField, BitVec.getLsbD_append, BitVec.getLsbD_extractLsb']
  split
  · next h => simp [h]
  · next h =>
    have : 8 + (j - 8) = j := by omega
    have : j - 8 < 24 := by omega
    simp [*]

theorem decodeOpcode_eq_ok (n : Nat) (i : Instr) : decodeOpcode n = .ok i ↔ n = (opcodeOf i).toNat := by
  unfold decodeOpcode
  split <;> cases i <;> simp [opcodeOf] <;> omega

/-- A word selects a command exactly when it is the command's word (R91). -/
theorem decode_eq_ok (w : Word) (i : Instr) : decode w = .ok i ↔ w = encode i := by
  unfold decode
  split
  · next h =>
    rw [decodeOpcode_eq_ok]
    constructor
    · intro hn
      rw [word_eq_fields w, h, show opcodeField w = opcodeOf i from BitVec.eq_of_toNat_eq hn]
      rfl
    · rintro rfl
      cases i <;> decide
  · next h =>
    simp only [reduceCtorEq, false_iff]
    rintro rfl
    exact h (by cases i <;> decide)

theorem decode_encode (i : Instr) : decode (encode i) = .ok i := (decode_eq_ok _ i).mpr rfl

/-- A byte lane of a word put together from lanes is the lane (R65). -/
theorem laneOf_wordOfLanes (b0 b1 b2 b3 : Byte) :
    laneOf (wordOfLanes b0 b1 b2 b3) 0 = b0 ∧ laneOf (wordOfLanes b0 b1 b2 b3) 1 = b1 ∧
      laneOf (wordOfLanes b0 b1 b2 b3) 2 = b2 ∧ laneOf (wordOfLanes b0 b1 b2 b3) 3 = b3 := by
  refine ⟨?_, ?_, ?_, ?_⟩ <;>
  · apply BitVec.eq_of_getLsbD_eq
    intro j hj
    simp only [laneOf, wordOfLanes, BitVec.getLsbD_extractLsb', BitVec.getLsbD_append, hj, decide_true, Bool.true_and]
    repeat' split
    all_goals first | omega | (congr 1; omega)

/-- A word is its byte lanes (R65). -/
theorem wordOfLanes_laneOf (w : Word) : wordOfLanes (laneOf w 0) (laneOf w 1) (laneOf w 2) (laneOf w 3) = w := by
  apply BitVec.eq_of_getLsbD_eq
  intro j hj
  simp only [laneOf, wordOfLanes, BitVec.getLsbD_extractLsb', BitVec.getLsbD_append]
  repeat' split
  · next h => simp [h]
  · next h1 h2 =>
    have : 8 + (j - 8) = j := by omega
    simp [*]
  · next h1 h2 h3 =>
    have : 16 + (j - 8 - 8) = j := by omega
    simp [*]
  · next h1 h2 h3 =>
    have : 24 + (j - 8 - 8 - 8) = j := by omega
    have : j - 8 - 8 - 8 < 8 := by omega
    simp [*]

/-- A word decodes to some command exactly when it is valid (R92). -/
theorem decode_valid_iff (w : Word) :
    (∃ i, decode w = .ok i) ↔ rsvdField w = 0 ∧ 1 ≤ (opcodeField w).toNat ∧ (opcodeField w).toNat ≤ 7 := by
  constructor
  · rintro ⟨i, hi⟩
    obtain rfl := (decode_eq_ok w i).mp hi
    cases i <;> decide
  · rintro ⟨hr, h1, h7⟩
    rw [decode, if_pos hr]
    generalize (opcodeField w).toNat = n at h1 h7
    interval_cases n
    all_goals exact ⟨_, rfl⟩

end Sys2Proof
end

