-- ==== Sys2Proof/Laws/NumberTheory.lean ====
section
/-! SUPPORT. isPrime is the exact predicate of spec/00_scope.md R10, and sortAsc the strictly ascending list of a set. -/

namespace Sys2Proof.Machine

/-- The trial division from d finds a divisor if there is one in [d, n). -/
theorem noDivisorFrom_iff (fuel d n : Nat) (hd : 2 ≤ d) (hf : n < fuel + d)
    (hlow : ∀ e, 1 < e → e < d → ¬ e ∣ n) :
    noDivisorFrom fuel d n = true ↔ ∀ e, 1 < e → e < n → ¬ e ∣ n := by
  induction fuel generalizing d with
  | zero =>
    simp only [noDivisorFrom, true_iff]
    intro e he hen
    exact hlow e he (by omega)
  | succ fuel ih =>
    simp only [noDivisorFrom]
    split
    · next hsq =>
      simp only [true_iff]
      rintro e he hen ⟨k, hk⟩
      by_cases hed : e < d
      · exact hlow e he hed ⟨k, hk⟩
      · have hkd : k < d := by nlinarith
        have hk1 : 1 < k := by nlinarith
        exact hlow k hk1 hkd ⟨e, by rw [hk, mul_comm]⟩
    · split
      · next hsq hdiv =>
        simp only [Bool.false_eq_true, false_iff, not_forall]
        exact ⟨d, by omega, by nlinarith, by simpa using Nat.dvd_of_mod_eq_zero hdiv⟩
      · next hsq hdiv =>
        refine ih (d + 1) (by omega) (by omega) ?_
        intro e he hed
        rcases Nat.lt_succ_iff_lt_or_eq.mp hed with h | rfl
        · exact hlow e he h
        · exact fun h => hdiv (Nat.mod_eq_zero_of_dvd h)

/-- isPrime(n) is exact: n ≥ 2 and no divisor d with 1 < d < n (R10). -/
theorem isPrimeNat_iff (n : Nat) : isPrimeNat n = true ↔ 2 ≤ n ∧ ∀ d, 1 < d → d < n → ¬ d ∣ n := by
  simp only [isPrimeNat, Bool.and_eq_true, decide_eq_true_eq]
  exact and_congr_right fun _ => noDivisorFrom_iff n 2 n le_rfl (by omega) (by omega)

/-- isPrime on naturals is Mathlib's primality. -/
theorem isPrimeNat_iff_prime (n : Nat) : isPrimeNat n = true ↔ n.Prime := by
  rw [isPrimeNat_iff, Nat.prime_def_lt]
  refine and_congr_right fun hn => ⟨fun h m hm hd => ?_, fun h d hd1 hdn hdvd => ?_⟩
  · by_contra hne
    have : m ≠ 0 := by
      rintro rfl
      have := Nat.zero_dvd.mp hd
      omega
    exact h m (by omega) hm hd
  · have := h d hdn hdvd
    omega

theorem isPrime_iff_prime (v : Int) : isPrime v = true ↔ v.toNat.Prime := isPrimeNat_iff_prime _

/-! ## sortAsc -/

theorem mem_insertAsc (u v : Int) (l : List Int) : u ∈ insertAsc v l ↔ u = v ∨ u ∈ l := by
  induction l with
  | nil => simp [insertAsc]
  | cons x xs ih =>
    simp only [insertAsc]
    split
    · simp
    · split
      · next h => subst h; simp
      · simp only [List.mem_cons, ih]
        tauto

theorem insertAsc_pairwise (v : Int) (l : List Int) (h : l.Pairwise (· < ·)) :
    (insertAsc v l).Pairwise (· < ·) := by
  induction l with
  | nil => simp [insertAsc]
  | cons x xs ih =>
    rw [List.pairwise_cons] at h
    simp only [insertAsc]
    split
    · next hlt =>
      rw [List.pairwise_cons, List.pairwise_cons]
      refine ⟨?_, h⟩
      rintro a (_ | ⟨_, ha⟩)
      · exact hlt
      · exact hlt.trans (h.1 a ha)
    · split
      · exact List.pairwise_cons.mpr h
      · next h1 h2 =>
        refine List.pairwise_cons.mpr ⟨fun a ha => ?_, ih h.2⟩
        rcases (mem_insertAsc a v xs).mp ha with rfl | ha
        · omega
        · exact h.1 a ha

/-- sortAsc keeps the elements. -/
theorem mem_sortAsc (u : Int) (l : List Int) : u ∈ sortAsc l ↔ u ∈ l := by
  induction l with
  | nil => simp [sortAsc]
  | cons x xs ih => simp [sortAsc, mem_insertAsc, ih]

/-- sortAsc answers a strictly ascending list. -/
theorem sortAsc_pairwise (l : List Int) : (sortAsc l).Pairwise (· < ·) := by
  induction l with
  | nil => simp [sortAsc]
  | cons x xs ih => exact insertAsc_pairwise x _ ih

theorem sortAsc_nodup (l : List Int) : (sortAsc l).Nodup :=
  (sortAsc_pairwise l).imp fun h => h.ne

/-- Two strictly ascending lists with the same elements are equal. -/
theorem eq_of_pairwise_of_mem (l m : List Int) (hl : l.Pairwise (· < ·)) (hm : m.Pairwise (· < ·))
    (h : ∀ v, v ∈ l ↔ v ∈ m) : l = m :=
  ((List.perm_ext_iff_of_nodup (hl.imp fun h => h.ne) (hm.imp fun h => h.ne)).mpr h).eq_of_pairwise
    (fun _ _ _ _ h1 h2 => absurd h1 (lt_asymm h2)) hl hm

/-- Without a repeat, sortAsc keeps the number of elements. -/
theorem length_sortAsc_of_nodup (l : List Int) (h : l.Nodup) : (sortAsc l).length = l.length :=
  ((List.perm_ext_iff_of_nodup (sortAsc_nodup l) h).mpr fun v => mem_sortAsc v l).length_eq

end Sys2Proof.Machine
end

