-- ==== Sys2Proof/Laws/SquareRoot.lean ====
section
/-! SUPPORT. msqrt_fn and rsqrt_fn answer exactly the square roots, ascending. -/

namespace Sys2Proof.Machine

theorem classOK_iff (p : Int) : classOK p = true ↔ 3 ≤ p ∧ p % 4 = 3 := by
  simp [classOK]

/-- An integer that passes isPrime is a prime of ℤ. -/
theorem prime_of_isPrime (p : Int) (hp : isPrime p = true) : Prime p := by
  have h := (isPrime_iff_prime p).mp hp
  have h0 : 0 ≤ p := by
    by_contra hneg
    rw [Int.toNat_of_nonpos (by omega)] at h
    exact Nat.not_prime_zero h
  rw [← Int.toNat_of_nonneg h0]
  exact Nat.prime_iff_prime_int.mp h

/-- Fermat's little theorem for an integer that passes isPrime. -/
theorem pow_sub_one_of_isPrime (x p : Int) (hp : isPrime p = true) (hx : ¬ p ∣ x) :
    x ^ (p - 1).toNat % p = 1 := by
  have hprime := (isPrime_iff_prime p).mp hp
  have h2 := hprime.two_le
  have hpp : ((p.toNat : Nat) : Int) = p := Int.toNat_of_nonneg (by omega)
  have hc : IsCoprime x ((p.toNat : Nat) : Int) := by
    rw [hpp]
    exact ((prime_of_isPrime p hp).coprime_iff_not_dvd.mpr hx).symm
  have h := Int.ModEq.pow_card_sub_one_eq_one hprime hc
  rw [hpp, show p.toNat - 1 = (p - 1).toNat by omega] at h
  rw [h, Int.emod_eq_of_lt (by omega) (by omega)]

/-- The candidate root of R202 squares to a when Euler's criterion holds. -/
theorem candidate_square (a p : Int) (hc : classOK p = true)
    (he : a ^ ((p - 1) / 2).toNat % p = 1) :
    a ^ ((p + 1) / 4).toNat * a ^ ((p + 1) / 4).toNat % p = a % p := by
  obtain ⟨h3, h4⟩ := (classOK_iff p).mp hc
  have hsplit : ((p + 1) / 4).toNat + ((p + 1) / 4).toNat = 1 + ((p - 1) / 2).toNat := by omega
  rw [← pow_add, hsplit, pow_add, pow_one, Int.mul_emod, he, mul_one, Int.emod_emod_of_dvd _ dvd_rfl]

/-- Two integers in [0, p) with the same square modulo a prime are equal or add up to p, or are both 0. -/
theorem eq_or_eq_sub_of_square (x y p : Int) (hp : isPrime p = true) (hx : 0 ≤ x) (hxp : x < p) (hy : 0 < y)
    (hyp : y < p) (h : x * x % p = y * y % p) : x = y ∨ x = p - y := by
  have hd : p ∣ (x - y) * (x + y) := by
    have := (Int.ModEq.dvd (show y * y ≡ x * x [ZMOD p] from h.symm))
    rwa [show (x - y) * (x + y) = x * x - y * y by ring]
  rcases (prime_of_isPrime p hp).dvd_or_dvd hd with ⟨k, hk⟩ | ⟨k, hk⟩
  · left
    have : k = 0 := by nlinarith
    subst this
    omega
  · right
    have : k = 1 := by nlinarith
    subst this
    omega

/-- The elements of msqrt_fn are the square roots of a modulo p in [0, p). -/
theorem mem_msqrtFn (a p : Int) (hc : classOK p = true) (hp : isPrime p = true) (x : Int) :
    x ∈ msqrtFn a p ↔ 0 ≤ x ∧ x < p ∧ x * x % p = a % p := by
  obtain ⟨h3, h4⟩ := (classOK_iff p).mp hc
  have hpr := prime_of_isPrime p hp
  have hred : a % p % p = a % p := Int.emod_emod_of_dvd a dvd_rfl
  have hlt : a % p < p := Int.emod_lt_of_pos a (by omega)
  have hnn : 0 ≤ a % p := Int.emod_nonneg a (by omega)
  unfold msqrtFn
  simp only [modexpFn_eq]
  split
  · next h0 =>
    simp only [List.mem_singleton, h0]
    refine ⟨fun h => by subst h; simp; omega, fun ⟨hx0, hxp, hsq⟩ => ?_⟩
    have hd : p ∣ x := by
      rcases hpr.dvd_or_dvd (Int.dvd_of_emod_eq_zero hsq) with h | h <;> exact h
    exact Int.eq_zero_of_dvd_of_nonneg_of_lt hx0 hxp hd
  · next h0 =>
    split
    · next he =>
      simp only [List.not_mem_nil, false_iff]
      rintro ⟨hx0, hxp, hsq⟩
      apply he
      have hndvd : ¬ p ∣ x := by
        intro hd
        exact h0 (hsq ▸ Int.emod_eq_zero_of_dvd (hd.mul_right x))
      rw [← hsq, ← Int.ModEq.pow ((p - 1) / 2).toNat (Int.mod_modEq (x * x) p).symm |>.eq, ← pow_two, ← pow_mul,
        show 2 * ((p - 1) / 2).toNat = (p - 1).toNat by omega]
      exact pow_sub_one_of_isPrime x p hp hndvd
    · next he =>
      have hsq := candidate_square (a % p) p hc (by simpa using he)
      rw [hred] at hsq
      generalize (a % p) ^ ((p + 1) / 4).toNat = c at hsq
      have hy : c % p * (c % p) % p = a % p := by rw [← Int.mul_emod, hsq]
      have hy0 : c % p ≠ 0 := fun h => h0 (by rw [← hy, h]; simp)
      have hyp : c % p < p := Int.emod_lt_of_pos c (by omega)
      have hyn : 0 ≤ c % p := Int.emod_nonneg c (by omega)
      simp only [mem_sortAsc, List.mem_cons, List.not_mem_nil, or_false]
      constructor
      · rintro (rfl | rfl)
        · exact ⟨hyn, hyp, hy⟩
        · refine ⟨by omega, by omega, ?_⟩
          rw [← hy, show (p - c % p) * (p - c % p) = c % p * (c % p) + p * (p - 2 * (c % p)) by ring,
            Int.add_mul_emod_self_left]
      · rintro ⟨hx0, hxp, hx⟩
        exact eq_or_eq_sub_of_square x (c % p) p hp hx0 hxp (by omega) hyp (by rw [hx, hy])

/-- msqrt_fn answers a strictly ascending list. -/
theorem msqrtFn_pairwise (a p : Int) : (msqrtFn a p).Pairwise (· < ·) := by
  unfold msqrtFn
  split
  · simp
  · split
    · simp
    · exact sortAsc_pairwise _

/-- msqrt_fn answers at most two roots. -/
theorem msqrtFn_length (a p : Int) : (msqrtFn a p).length ≤ 2 := by
  unfold msqrtFn
  split
  · simp
  · split
    · simp
    · simp only [sortAsc, insertAsc]
      split <;> [simp; (split <;> simp)]

/-- Distinct primes are coprime. -/
theorem gcd_of_isPrime (p q : Int) (hp : isPrime p = true) (hq : isPrime q = true) (hne : p ≠ q) :
    Int.gcd p q = 1 := by
  have hpn := (isPrime_iff_prime p).mp hp
  have hqn := (isPrime_iff_prime q).mp hq
  have h1 := hpn.two_le
  have h2 := hqn.two_le
  have := (Nat.coprime_primes hpn hqn).mpr (by omega)
  rwa [Int.gcd, show p.natAbs = p.toNat by omega, show q.natAbs = q.toNat by omega]

/-- x² ≡ c modulo p·q, for coprime p and q, when it does so modulo p and modulo q. -/
theorem square_mod_mul (x c p q : Int) (hc : Int.gcd p q = 1) :
    x * x % (p * q) = c % (p * q) ↔ x * x % p = c % p ∧ x * x % q = c % q := by
  constructor
  · intro h
    exact ⟨Int.ModEq.of_mul_right q h, Int.ModEq.of_mul_left p h⟩
  · rintro ⟨h1, h2⟩
    exact ((Int.modEq_of_dvd ((Int.isCoprime_iff_gcd_eq_one.mpr hc).mul_dvd (Int.ModEq.dvd h1) (Int.ModEq.dvd h2))))

/-- The elements of RSQRT's list are the square roots of c modulo p·q in [0, p·q). -/
theorem mem_rsqrtFn (c p q : Int) (hcp : classOK p = true) (hcq : classOK q = true) (hp : isPrime p = true)
    (hq : isPrime q = true) (hne : p ≠ q) (x : Int) :
    x ∈ rsqrtFn c p q ↔ 0 ≤ x ∧ x < p * q ∧ x * x % (p * q) = c % (p * q) := by
  obtain ⟨hp3, -⟩ := (classOK_iff p).mp hcp
  obtain ⟨hq3, -⟩ := (classOK_iff q).mp hcq
  have hg := gcd_of_isPrime p q hp hq hne
  rw [rsqrtFn, mem_sortAsc, square_mod_mul x c p q hg]
  simp only [List.mem_flatMap, List.mem_map, mem_msqrtFn c p hcp hp, mem_msqrtFn c q hcq hq]
  constructor
  · rintro ⟨rp, ⟨hrp0, hrpp, hrp⟩, rq, ⟨hrq0, hrqq, hrq⟩, rfl⟩
    obtain ⟨h0, hlt, h1, h2⟩ := crtFn_spec rp rq p q (by omega) (by omega) hg
    refine ⟨h0, hlt, ?_, ?_⟩
    · rw [Int.mul_emod, h1, ← Int.mul_emod, hrp]
    · rw [Int.mul_emod, h2, ← Int.mul_emod, hrq]
  · rintro ⟨h0, hlt, h1, h2⟩
    have hm : ∀ m : Int, x % m * (x % m) % m = x * x % m := fun m => (Int.mul_emod x x m).symm
    refine ⟨x % p, ⟨Int.emod_nonneg _ (by omega), Int.emod_lt_of_pos _ (by omega), by rw [hm, h1]⟩, x % q,
      ⟨Int.emod_nonneg _ (by omega), Int.emod_lt_of_pos _ (by omega), by rw [hm, h2]⟩, ?_⟩
    obtain ⟨g0, glt, g1, g2⟩ := crtFn_spec (x % p) (x % q) p q (by omega) (by omega) hg
    exact eq_of_residues _ _ p q hg g0 glt h0 hlt (by rw [g1, Int.emod_emod_of_dvd _ dvd_rfl])
      (by rw [g2, Int.emod_emod_of_dvd _ dvd_rfl])

/-- RSQRT answers a strictly ascending list. -/
theorem rsqrtFn_pairwise (c p q : Int) : (rsqrtFn c p q).Pairwise (· < ·) := sortAsc_pairwise _

theorem length_insertAsc_le (v : Int) (l : List Int) : (insertAsc v l).length ≤ l.length + 1 := by
  induction l with
  | nil => simp [insertAsc]
  | cons x xs ih =>
    simp only [insertAsc]
    split
    · simp
    · split
      · simp
      · simp only [List.length_cons]
        omega

theorem length_sortAsc_le (l : List Int) : (sortAsc l).length ≤ l.length := by
  induction l with
  | nil => simp [sortAsc]
  | cons x xs ih => exact (length_insertAsc_le x _).trans (by simpa using ih)

/-- RSQRT answers at most four roots, whatever its operands. -/
theorem rsqrtFn_length_le (c p q : Int) : (rsqrtFn c p q).length ≤ 4 := by
  refine (length_sortAsc_le _).trans ?_
  rw [List.length_flatMap]
  simp only [List.length_map, List.map_const', List.sum_replicate, smul_eq_mul]
  exact Nat.mul_le_mul (msqrtFn_length c p) (msqrtFn_length c q)

/-- RSQRT answers |Rp|·|Rq| roots: crt_fn is one-to-one on pairs of roots. -/
theorem rsqrtFn_length (c p q : Int) (hcp : classOK p = true) (hcq : classOK q = true) (hp : isPrime p = true)
    (hq : isPrime q = true) (hne : p ≠ q) :
    (rsqrtFn c p q).length = (msqrtFn c p).length * (msqrtFn c q).length := by
  obtain ⟨hp3, -⟩ := (classOK_iff p).mp hcp
  obtain ⟨hq3, -⟩ := (classOK_iff q).mp hcq
  have hg := gcd_of_isPrime p q hp hq hne
  have hres : ∀ rp ∈ msqrtFn c p, ∀ rq ∈ msqrtFn c q, crtFn rp rq p q % p = rp ∧ crtFn rp rq p q % q = rq := by
    intro rp hrp rq hrq
    obtain ⟨a0, a1, -⟩ := (mem_msqrtFn c p hcp hp rp).mp hrp
    obtain ⟨b0, b1, -⟩ := (mem_msqrtFn c q hcq hq rq).mp hrq
    obtain ⟨-, -, h1, h2⟩ := crtFn_spec rp rq p q (by omega) (by omega) hg
    rw [h1, h2, Int.emod_eq_of_lt a0 a1, Int.emod_eq_of_lt b0 b1]
    exact ⟨rfl, rfl⟩
  have hnd : ((msqrtFn c p).flatMap fun rp => (msqrtFn c q).map fun rq => crtFn rp rq p q).Nodup := by
    rw [List.nodup_flatMap]
    refine ⟨fun rp hrp => ?_, ?_⟩
    · refine List.Nodup.map_on ?_ ((msqrtFn_pairwise c q).imp fun h => h.ne)
      intro x hx y hy hxy
      rw [← (hres rp hrp x hx).2, hxy, (hres rp hrp y hy).2]
    · refine (msqrtFn_pairwise c p).imp_of_mem fun {x y} hx hy hlt => ?_
      simp only [Function.onFun, List.Disjoint, List.mem_map]
      rintro z ⟨u, hu, rfl⟩ ⟨v, hv, hvz⟩
      have h1 := (hres x hx u hu).1
      rw [← hvz, (hres y hy v hv).1] at h1
      omega
  rw [rsqrtFn, length_sortAsc_of_nodup _ hnd, List.length_flatMap]
  simp

end Sys2Proof.Machine
end

