-- ==== Sys2Proof/Laws/Fermat.lean ====
section
/-! SUPPORT. What the trial loop of FERMAT answers, and when it waits for a draw (spec/42_primality.md R185, R187). -/

namespace Sys2Proof.Machine

theorem modexp_eq_one_iff {w : Nat} (n : Int) (r : BitVec w) :
    modexpFn (witnessOf n r) (n - 1).toNat n = 1 ↔ trialPasses n r := by
  rw [modexpFn_eq, trialPasses, witnessOf, uval]

/-- A passing trial goes on with the next draw. -/
theorem fermatTrials_pass {w : Nat} (n : Int) (left : Nat) (i a : Int) (r : BitVec w) (rs : List (BitVec w))
    (h : trialPasses n r) :
    fermatTrials n (left + 1) i a (r :: rs) = fermatTrials n left (i + 1) (witnessOf n r) rs := by
  rw [fermatTrials, if_pos ((modexp_eq_one_iff n r).mpr h)]

/-- A failing trial decides. -/
theorem fermatTrials_fail {w : Nat} (n : Int) (left : Nat) (i a : Int) (r : BitVec w) (rs : List (BitVec w))
    (h : ¬ trialPasses n r) :
    fermatTrials n (left + 1) i a (r :: rs) = some (.ok [0, i + 1, witnessOf n r]) := by
  rw [fermatTrials, if_neg fun hm => h ((modexp_eq_one_iff n r).mp hm)]

/-- The loop waits exactly while every draw passed and trials are left. -/
theorem fermatTrials_eq_none_iff {w : Nat} (n : Int) (left : Nat) (i a : Int) (draws : List (BitVec w)) :
    fermatTrials n left i a draws = none ↔ draws.length < left ∧ ∀ r ∈ draws, trialPasses n r := by
  induction draws generalizing left i a with
  | nil => cases left <;> simp [fermatTrials]
  | cons r rs ih =>
    cases left with
    | zero => simp [fermatTrials]
    | succ left =>
      by_cases h : trialPasses n r
      · rw [fermatTrials_pass n left i a r rs h, ih]
        simp [h]
      · rw [fermatTrials_fail n left i a r rs h]
        simp [h]

/-- A loop that passes all of its trials answers 1, the number of trials and the last witness. -/
theorem fermatTrials_all_pass {w : Nat} (n i a : Int) (draws rest : List (BitVec w))
    (h : ∀ r ∈ draws, trialPasses n r) :
    fermatTrials n draws.length i a (draws ++ rest) =
      some (.ok [1, i + draws.length, (draws.getLast?.map (witnessOf n)).getD a]) := by
  induction draws generalizing i a with
  | nil => cases rest <;> simp [fermatTrials]
  | cons r rs ih =>
    simp only [List.mem_cons, forall_eq_or_imp] at h
    rw [List.cons_append, List.length_cons, fermatTrials_pass _ _ _ _ _ _ h.1, ih _ _ h.2]
    cases hrs : rs.getLast? with
    | none =>
      rw [List.getLast?_eq_none_iff] at hrs
      subst hrs
      simp
    | some x =>
      rw [List.getLast?_cons, hrs]
      simp
      omega

/-- A loop whose first failing trial is at `r` answers 0, the number of that trial and its witness. -/
theorem fermatTrials_first_fail {w : Nat} (n i a : Int) (left : Nat) (draws rest : List (BitVec w)) (r : BitVec w)
    (hl : draws.length < left) (h : ∀ u ∈ draws, trialPasses n u) (hr : ¬ trialPasses n r) :
    fermatTrials n left i a (draws ++ r :: rest) =
      some (.ok [0, i + draws.length + 1, witnessOf n r]) := by
  induction draws generalizing i a left with
  | nil =>
    obtain ⟨left, rfl⟩ : ∃ l, left = l + 1 := ⟨left - 1, by simp at hl; omega⟩
    simpa using fermatTrials_fail n left i a r rest hr
  | cons u us ih =>
    obtain ⟨left, rfl⟩ : ∃ l, left = l + 1 := ⟨left - 1, by simp at hl; omega⟩
    simp only [List.mem_cons, forall_eq_or_imp] at h
    rw [List.cons_append, fermatTrials_pass _ _ _ _ _ _ h.1, ih _ _ left (by simpa using hl) h.2]
    simp
    omega

/-- Everything the loop can answer: it waits, or all `left` trials passed, or one failed first. -/
theorem fermatTrials_cases {w : Nat} (n : Int) (left : Nat) (i a : Int) (draws : List (BitVec w)) :
    (fermatTrials n left i a draws = none) ∨
      (∃ ps rest, draws = ps ++ rest ∧ ps.length = left ∧ (∀ r ∈ ps, trialPasses n r) ∧
        fermatTrials n left i a draws = some (.ok [1, i + left, (ps.getLast?.map (witnessOf n)).getD a])) ∨
      (∃ ps r rest, draws = ps ++ r :: rest ∧ ps.length < left ∧ (∀ r ∈ ps, trialPasses n r) ∧ ¬ trialPasses n r ∧
        fermatTrials n left i a draws = some (.ok [0, i + ps.length + 1, witnessOf n r])) := by
  by_cases hall : ∀ r ∈ draws.take left, trialPasses n r
  · by_cases hlen : draws.length < left
    · left
      rw [List.take_of_length_le (by omega)] at hall
      exact (fermatTrials_eq_none_iff ..).mpr ⟨hlen, hall⟩
    · right; left
      have hl : (draws.take left).length = left := by simp; omega
      refine ⟨draws.take left, draws.drop left, (List.take_append_drop ..).symm, hl, hall, ?_⟩
      have := fermatTrials_all_pass n i a (draws.take left) (draws.drop left) hall
      rwa [hl, List.take_append_drop] at this
  · right; right
    induction draws generalizing left i a with
    | nil => simp at hall
    | cons u us ih =>
      cases left with
      | zero => simp at hall
      | succ left =>
        by_cases hu : trialPasses n u
        · obtain ⟨ps, r, rest, rfl, hlt, hps, hr, -⟩ := ih left i a (by simpa [hu] using hall)
          refine ⟨u :: ps, r, rest, rfl, by simpa using hlt, by simpa [hu] using hps, hr, ?_⟩
          exact fermatTrials_first_fail n i a (left + 1) (u :: ps) rest r (by simpa using hlt)
            (by simpa [hu] using hps) hr
        · exact ⟨[], u, us, rfl, by simp, by simp, hu,
            fermatTrials_first_fail n i a (left + 1) [] us u (by simp) (by simp) hu⟩

/-- More draws than the deciding ones change nothing. -/
theorem fermatTrials_append {w : Nat} (n : Int) (left : Nat) (i a : Int) (draws more : List (BitVec w)) (o : CmdOutcome)
    (h : fermatTrials n left i a draws = some o) : fermatTrials n left i a (draws ++ more) = some o := by
  induction draws generalizing left i a with
  | nil =>
    cases left with
    | zero => cases more <;> simpa [fermatTrials] using h
    | succ left => simp [fermatTrials] at h
  | cons r rs ih =>
    cases left with
    | zero => simpa [fermatTrials] using h
    | succ left =>
      simp only [List.cons_append, fermatTrials] at h ⊢
      split at h
      · next hp => rw [if_pos hp]; exact ih _ _ _ h
      · next hp => rw [if_neg hp]; exact h

/-- The witness of a draw is in [2, n−2] (R182). -/
theorem witnessOf_bounds {w : Nat} (n : Int) (r : BitVec w) (h : 5 ≤ n) :
    2 ≤ witnessOf n r ∧ witnessOf n r ≤ n - 2 := by
  have h1 := Int.emod_nonneg (r.toNat : Int) (show n - 3 ≠ 0 by omega)
  have h2 := Int.emod_lt_of_pos (r.toNat : Int) (show 0 < n - 3 by omega)
  simp only [witnessOf, uval]
  omega

/-- Every trial of a prime n passes. -/
theorem trialPasses_of_isPrime {w : Nat} (n : Int) (hn : 5 ≤ n) (hp : isPrime n = true) (r : BitVec w) :
    trialPasses n r := by
  obtain ⟨h1, h2⟩ := witnessOf_bounds n r hn
  exact pow_sub_one_of_isPrime (witnessOf n r) n hp fun hd => by
    have := Int.le_of_dvd (by omega) hd
    omega

/-- FERMAT needs a draw only for rounds ≥ 1 and an odd n ≥ 5 (R187). -/
theorem fermatOutcome_eq_none_iff {w : Nat} (n rounds : Int) (draws : List (BitVec w)) :
    fermatOutcome n rounds draws = none ↔
      1 ≤ rounds ∧ 5 ≤ n ∧ n % 2 = 1 ∧ (draws.length : Int) < rounds ∧ ∀ r ∈ draws, trialPasses n r := by
  unfold fermatOutcome
  split
  · simp; omega
  · split
    · simp; omega
    · split
      · simp; omega
      · split
        · simp; omega
        · rw [fermatTrials_eq_none_iff]
          constructor
          · rintro ⟨h1, h2⟩
            exact ⟨by omega, by omega, by omega, by omega, h2⟩
          · rintro ⟨-, -, -, h1, h2⟩
            exact ⟨by omega, h2⟩

/-- With rounds ≥ 1 and an odd n ≥ 5, FERMAT is the trial loop. -/
theorem fermatOutcome_of_odd {w : Nat} (n rounds : Int) (draws : List (BitVec w)) (hr : 1 ≤ rounds) (hn : 5 ≤ n)
    (ho : n % 2 = 1) : fermatOutcome n rounds draws = fermatTrials n rounds.toNat 0 0 draws := by
  rw [fermatOutcome, if_neg (by omega), if_neg (by omega), if_neg (by omega), if_neg (by omega)]

/-- A FERMAT that still needs a draw keeps needing it when only earlier draws are looked at. -/
theorem fermatOutcome_take_none {w : Nat} (n rounds : Int) (draws : List (BitVec w)) (k : Nat)
    (h : fermatOutcome n rounds draws = none) : fermatOutcome n rounds (draws.take k) = none := by
  rw [fermatOutcome_eq_none_iff] at h ⊢
  obtain ⟨h1, h2, h3, h4, h5⟩ := h
  refine ⟨h1, h2, h3, ?_, fun r hr => h5 r (List.mem_of_mem_take hr)⟩
  have : (draws.take k).length ≤ draws.length := by simp
  omega

end Sys2Proof.Machine
end

