-- ==== Sys2Proof/Laws/State.lean ====
section
/-! SUPPORT. What each shared update of State does to each field: one lemma per field per update. -/

namespace Sys2Proof.Machine

/-! ## The accept step (R110) -/

@[simp] theorem accept_cfg (v : Word) (s : State) : (accept v s).cfg = s.cfg := rfl
@[simp] theorem accept_opa (v : Word) (s : State) : (accept v s).opa = s.opa := rfl
@[simp] theorem accept_opb (v : Word) (s : State) : (accept v s).opb = s.opb := rfl
@[simp] theorem accept_opc (v : Word) (s : State) : (accept v s).opc = s.opc := rfl
@[simp] theorem accept_opd (v : Word) (s : State) : (accept v s).opd = s.opd := rfl
@[simp] theorem accept_res0 (v : Word) (s : State) : (accept v s).res0 = s.res0 := rfl
@[simp] theorem accept_res1 (v : Word) (s : State) : (accept v s).res1 = s.res1 := rfl
@[simp] theorem accept_res2 (v : Word) (s : State) : (accept v s).res2 = s.res2 := rfl
@[simp] theorem accept_res3 (v : Word) (s : State) : (accept v s).res3 = s.res3 := rfl
@[simp] theorem accept_ie (v : Word) (s : State) : (accept v s).ie = s.ie := rfl
@[simp] theorem accept_cmd (v : Word) (s : State) : (accept v s).cmd = v := rfl
@[simp] theorem accept_done (v : Word) (s : State) : (accept v s).done = false := rfl
@[simp] theorem accept_ovr (v : Word) (s : State) : (accept v s).ovr = s.ovr := rfl
@[simp] theorem accept_errcode (v : Word) (s : State) : (accept v s).errcode = .ok := rfl
@[simp] theorem accept_rcount (v : Word) (s : State) : (accept v s).rcount = 0 := rfl
@[simp] theorem accept_phase (v : Word) (s : State) : (accept v s).phase = .busy ⟨v, s.opa, s.opb, s.opc, s.opd⟩ [] := rfl
@[simp] theorem accept_inputs (v : Word) (s : State) : (accept v s).inputs = s.inputs := rfl
@[simp] theorem accept_resp (v : Word) (s : State) : (accept v s).resp = s.resp := rfl

/-! ## An error completion (R250) -/

@[simp] theorem completeFail_cfg (c : ErrCode) (s : State) : (completeFail c s).cfg = s.cfg := rfl
@[simp] theorem completeFail_opa (c : ErrCode) (s : State) : (completeFail c s).opa = s.opa := rfl
@[simp] theorem completeFail_opb (c : ErrCode) (s : State) : (completeFail c s).opb = s.opb := rfl
@[simp] theorem completeFail_opc (c : ErrCode) (s : State) : (completeFail c s).opc = s.opc := rfl
@[simp] theorem completeFail_opd (c : ErrCode) (s : State) : (completeFail c s).opd = s.opd := rfl
@[simp] theorem completeFail_res0 (c : ErrCode) (s : State) : (completeFail c s).res0 = s.res0 := rfl
@[simp] theorem completeFail_res1 (c : ErrCode) (s : State) : (completeFail c s).res1 = s.res1 := rfl
@[simp] theorem completeFail_res2 (c : ErrCode) (s : State) : (completeFail c s).res2 = s.res2 := rfl
@[simp] theorem completeFail_res3 (c : ErrCode) (s : State) : (completeFail c s).res3 = s.res3 := rfl
@[simp] theorem completeFail_ie (c : ErrCode) (s : State) : (completeFail c s).ie = s.ie := rfl
@[simp] theorem completeFail_cmd (c : ErrCode) (s : State) : (completeFail c s).cmd = s.cmd := rfl
@[simp] theorem completeFail_done (c : ErrCode) (s : State) : (completeFail c s).done = true := rfl
@[simp] theorem completeFail_ovr (c : ErrCode) (s : State) : (completeFail c s).ovr = s.ovr := rfl
@[simp] theorem completeFail_errcode (c : ErrCode) (s : State) : (completeFail c s).errcode = c := rfl
@[simp] theorem completeFail_rcount (c : ErrCode) (s : State) : (completeFail c s).rcount = 0 := rfl
@[simp] theorem completeFail_phase (c : ErrCode) (s : State) : (completeFail c s).phase = .idle := rfl
@[simp] theorem completeFail_inputs (c : ErrCode) (s : State) : (completeFail c s).inputs = s.inputs := rfl
@[simp] theorem completeFail_resp (c : ErrCode) (s : State) : (completeFail c s).resp = s.resp := rfl

/-! ## A successful completion (R113) -/

@[simp] theorem completeOk_cfg (vs : List Int) (s : State) : (completeOk vs s).cfg = s.cfg := rfl
@[simp] theorem completeOk_opa (vs : List Int) (s : State) : (completeOk vs s).opa = s.opa := rfl
@[simp] theorem completeOk_opb (vs : List Int) (s : State) : (completeOk vs s).opb = s.opb := rfl
@[simp] theorem completeOk_opc (vs : List Int) (s : State) : (completeOk vs s).opc = s.opc := rfl
@[simp] theorem completeOk_opd (vs : List Int) (s : State) : (completeOk vs s).opd = s.opd := rfl
@[simp] theorem completeOk_res0 (vs : List Int) (s : State) : (completeOk vs s).res0 = resultSlot s.cfg.width vs 0 := rfl
@[simp] theorem completeOk_res1 (vs : List Int) (s : State) : (completeOk vs s).res1 = resultSlot s.cfg.width vs 1 := rfl
@[simp] theorem completeOk_res2 (vs : List Int) (s : State) : (completeOk vs s).res2 = resultSlot s.cfg.width vs 2 := rfl
@[simp] theorem completeOk_res3 (vs : List Int) (s : State) : (completeOk vs s).res3 = resultSlot s.cfg.width vs 3 := rfl
@[simp] theorem completeOk_ie (vs : List Int) (s : State) : (completeOk vs s).ie = s.ie := rfl
@[simp] theorem completeOk_cmd (vs : List Int) (s : State) : (completeOk vs s).cmd = s.cmd := rfl
@[simp] theorem completeOk_done (vs : List Int) (s : State) : (completeOk vs s).done = true := rfl
@[simp] theorem completeOk_ovr (vs : List Int) (s : State) : (completeOk vs s).ovr = s.ovr := rfl
@[simp] theorem completeOk_errcode (vs : List Int) (s : State) : (completeOk vs s).errcode = .ok := rfl
@[simp] theorem completeOk_rcount (vs : List Int) (s : State) : (completeOk vs s).rcount = BitVec.ofNat 3 vs.length := rfl
@[simp] theorem completeOk_phase (vs : List Int) (s : State) : (completeOk vs s).phase = .idle := rfl
@[simp] theorem completeOk_inputs (vs : List Int) (s : State) : (completeOk vs s).inputs = s.inputs := rfl
@[simp] theorem completeOk_resp (vs : List Int) (s : State) : (completeOk vs s).resp = s.resp := rfl

/-! ## A reset (R291) -/

@[simp] theorem resetCore_cfg (s : State) : (resetCore s).cfg = s.cfg := rfl
@[simp] theorem resetCore_opa (s : State) : (resetCore s).opa = 0 := rfl
@[simp] theorem resetCore_opb (s : State) : (resetCore s).opb = 0 := rfl
@[simp] theorem resetCore_opc (s : State) : (resetCore s).opc = 0 := rfl
@[simp] theorem resetCore_opd (s : State) : (resetCore s).opd = 0 := rfl
@[simp] theorem resetCore_res0 (s : State) : (resetCore s).res0 = 0 := rfl
@[simp] theorem resetCore_res1 (s : State) : (resetCore s).res1 = 0 := rfl
@[simp] theorem resetCore_res2 (s : State) : (resetCore s).res2 = 0 := rfl
@[simp] theorem resetCore_res3 (s : State) : (resetCore s).res3 = 0 := rfl
@[simp] theorem resetCore_ie (s : State) : (resetCore s).ie = false := rfl
@[simp] theorem resetCore_cmd (s : State) : (resetCore s).cmd = 0 := rfl
@[simp] theorem resetCore_done (s : State) : (resetCore s).done = false := rfl
@[simp] theorem resetCore_ovr (s : State) : (resetCore s).ovr = false := rfl
@[simp] theorem resetCore_errcode (s : State) : (resetCore s).errcode = .ok := rfl
@[simp] theorem resetCore_rcount (s : State) : (resetCore s).rcount = 0 := rfl
@[simp] theorem resetCore_phase (s : State) : (resetCore s).phase = .idle := rfl
@[simp] theorem resetCore_inputs (s : State) : (resetCore s).inputs = s.inputs := rfl
@[simp] theorem resetCore_resp (s : State) : (resetCore s).resp = s.resp := rfl

/-! ## A STATUS write (R32 to R38) -/

@[simp] theorem writeStatus_cfg (v : Word) (s : State) : (writeStatus v s).cfg = s.cfg := rfl
@[simp] theorem writeStatus_opa (v : Word) (s : State) : (writeStatus v s).opa = s.opa := rfl
@[simp] theorem writeStatus_opb (v : Word) (s : State) : (writeStatus v s).opb = s.opb := rfl
@[simp] theorem writeStatus_opc (v : Word) (s : State) : (writeStatus v s).opc = s.opc := rfl
@[simp] theorem writeStatus_opd (v : Word) (s : State) : (writeStatus v s).opd = s.opd := rfl
@[simp] theorem writeStatus_res0 (v : Word) (s : State) : (writeStatus v s).res0 = s.res0 := rfl
@[simp] theorem writeStatus_res1 (v : Word) (s : State) : (writeStatus v s).res1 = s.res1 := rfl
@[simp] theorem writeStatus_res2 (v : Word) (s : State) : (writeStatus v s).res2 = s.res2 := rfl
@[simp] theorem writeStatus_res3 (v : Word) (s : State) : (writeStatus v s).res3 = s.res3 := rfl
@[simp] theorem writeStatus_ie (v : Word) (s : State) : (writeStatus v s).ie = s.ie := rfl
@[simp] theorem writeStatus_cmd (v : Word) (s : State) : (writeStatus v s).cmd = s.cmd := rfl
@[simp] theorem writeStatus_done (v : Word) (s : State) : (writeStatus v s).done = (s.done && !v.getLsbD 1) := rfl
@[simp] theorem writeStatus_ovr (v : Word) (s : State) : (writeStatus v s).ovr = (s.ovr && !v.getLsbD 3) := rfl
@[simp] theorem writeStatus_errcode (v : Word) (s : State) : (writeStatus v s).errcode = s.errcode := rfl
@[simp] theorem writeStatus_rcount (v : Word) (s : State) : (writeStatus v s).rcount = s.rcount := rfl
@[simp] theorem writeStatus_phase (v : Word) (s : State) : (writeStatus v s).phase = s.phase := rfl
@[simp] theorem writeStatus_inputs (v : Word) (s : State) : (writeStatus v s).inputs = s.inputs := rfl
@[simp] theorem writeStatus_resp (v : Word) (s : State) : (writeStatus v s).resp = s.resp := rfl

/-! ## The bus port's answer -/

@[simp] theorem answer_cfg (r : BusResponse) (s : State) : (answer r s).cfg = s.cfg := rfl
@[simp] theorem answer_opa (r : BusResponse) (s : State) : (answer r s).opa = s.opa := rfl
@[simp] theorem answer_opb (r : BusResponse) (s : State) : (answer r s).opb = s.opb := rfl
@[simp] theorem answer_opc (r : BusResponse) (s : State) : (answer r s).opc = s.opc := rfl
@[simp] theorem answer_opd (r : BusResponse) (s : State) : (answer r s).opd = s.opd := rfl
@[simp] theorem answer_res0 (r : BusResponse) (s : State) : (answer r s).res0 = s.res0 := rfl
@[simp] theorem answer_res1 (r : BusResponse) (s : State) : (answer r s).res1 = s.res1 := rfl
@[simp] theorem answer_res2 (r : BusResponse) (s : State) : (answer r s).res2 = s.res2 := rfl
@[simp] theorem answer_res3 (r : BusResponse) (s : State) : (answer r s).res3 = s.res3 := rfl
@[simp] theorem answer_ie (r : BusResponse) (s : State) : (answer r s).ie = s.ie := rfl
@[simp] theorem answer_cmd (r : BusResponse) (s : State) : (answer r s).cmd = s.cmd := rfl
@[simp] theorem answer_done (r : BusResponse) (s : State) : (answer r s).done = s.done := rfl
@[simp] theorem answer_ovr (r : BusResponse) (s : State) : (answer r s).ovr = s.ovr := rfl
@[simp] theorem answer_errcode (r : BusResponse) (s : State) : (answer r s).errcode = s.errcode := rfl
@[simp] theorem answer_rcount (r : BusResponse) (s : State) : (answer r s).rcount = s.rcount := rfl
@[simp] theorem answer_phase (r : BusResponse) (s : State) : (answer r s).phase = s.phase := rfl
@[simp] theorem answer_inputs (r : BusResponse) (s : State) : (answer r s).inputs = s.inputs := rfl
@[simp] theorem answer_resp (r : BusResponse) (s : State) : (answer r s).resp = r := rfl

end Sys2Proof.Machine
end

