-- ==== Sys2Proof/Laws/Words.lean ====
section
/-! SUPPORT. Words of a W-bit register, and its signed value. -/

namespace Sys2Proof.Machine

/-- The bits of a register after a word write (R23). -/
theorem getLsbD_setWord {w : Nat} (x : BitVec w) (i : Nat) (v : Word) (b : Nat) (hb : b < w) :
    (setWord x i v).getLsbD b =
      if 32 * i ≤ b ∧ b < 32 * i + 32 then v.getLsbD (b - 32 * i) else x.getLsbD b := by
  simp only [setWord, BitVec.getLsbD_or, BitVec.getLsbD_and, BitVec.getLsbD_not, BitVec.getLsbD_shiftLeft,
    BitVec.getLsbD_setWidth, BitVec.getLsbD_allOnes, hb, decide_true, Bool.true_and]
  by_cases h1 : b < 32 * i
  · simp [h1, Nat.not_le.mpr h1]
  · by_cases h2 : b < 32 * i + 32
    · have : b - 32 * i < 32 := by omega
      have : b - 32 * i < w := by omega
      simp [*, Nat.le_of_not_lt h1]
    · have h3 : ¬ b - 32 * i < 32 := by omega
      have h4 : v.getLsbD (b - 32 * i) = false := BitVec.getLsbD_of_ge v _ (by omega)
      simp [h1, h2, h3, h4]

/-- A word written is the word read, where the register has that word (R23, R24). -/
theorem getWord_setWord_same {w : Nat} (x : BitVec w) (i : Nat) (v : Word) (h : 32 * i + 32 ≤ w) :
    getWord (setWord x i v) i = v := by
  apply BitVec.eq_of_getLsbD_eq
  intro j hj
  simp only [getWord, BitVec.getLsbD_extractLsb', hj, decide_true, Bool.true_and]
  rw [getLsbD_setWord x i v _ (by omega), if_pos (by omega)]
  congr 1
  omega

/-- A word write leaves every other word alone (R23). -/
theorem getWord_setWord_other {w : Nat} (x : BitVec w) (i j : Nat) (v : Word) (h : j ≠ i) (hj : 32 * j + 32 ≤ w) :
    getWord (setWord x i v) j = getWord x j := by
  apply BitVec.eq_of_getLsbD_eq
  intro b hb
  simp only [getWord, BitVec.getLsbD_extractLsb', hb, decide_true, Bool.true_and]
  rw [getLsbD_setWord x i v _ (by omega), if_neg (by omega)]

/-- A register is its words. -/
theorem eq_of_getWord {k : Nat} (x y : BitVec (32 * k)) (h : ∀ i < k, getWord x i = getWord y i) : x = y := by
  apply BitVec.eq_of_getLsbD_eq
  intro b hb
  have hw := congrArg (fun z : Word => z.getLsbD (b % 32)) (h (b / 32) (by omega))
  simp only [getWord, BitVec.getLsbD_extractLsb'] at hw
  have hlt : b % 32 < 32 := Nat.mod_lt _ (by omega)
  simpa [hlt, Nat.div_add_mod] using hw

theorem getLsbD_ofWords (w : Nat) (ws : List Word) (b : Nat) (hb : b < w) :
    (ofWords w ws).getLsbD b = ((ws[b / 32]?).getD 0).getLsbD (b % 32) := by
  induction ws generalizing b with
  | nil => simp [ofWords]
  | cons v vs ih =>
    simp only [ofWords, BitVec.getLsbD_or, BitVec.getLsbD_setWidth, BitVec.getLsbD_shiftLeft, hb, decide_true,
      Bool.true_and]
    by_cases h : b < 32
    · simp [h, Nat.div_eq_of_lt h, Nat.mod_eq_of_lt h]
    · have hv : v.getLsbD b = false := BitVec.getLsbD_of_ge v _ (by omega)
      have hd : b / 32 = (b - 32) / 32 + 1 := by omega
      have hm : b % 32 = (b - 32) % 32 := by omega
      simp [h, hv, ih (b - 32) (by omega), hd, hm]

/-- The words of a register, put together again, are the register (R64, R99). -/
theorem ofWords_getWord {k : Nat} (x : BitVec (32 * k)) :
    ofWords (32 * k) ((List.range k).map (getWord x)) = x := by
  apply BitVec.eq_of_getLsbD_eq
  intro b hb
  rw [getLsbD_ofWords _ _ _ hb]
  have h : b / 32 < k := by omega
  have hlt : b % 32 < 32 := Nat.mod_lt _ (by omega)
  simp [h, getWord, hlt, Nat.div_add_mod]

/-- fits_W in numbers (R8). -/
theorem fitsW_iff (w : Nat) (v : Int) : fitsW w v = true ↔ -(2 ^ (w - 1) : Int) ≤ v ∧ v ≤ 2 ^ (w - 1) - 1 := by
  simp [fitsW]

/-- A register holds an integer that fits (R8). -/
theorem fitsW_sval {w : Nat} (x : BitVec w) : fitsW w (sval x) = true := by
  rw [fitsW_iff, sval]
  have h1 := BitVec.le_toInt x
  have h2 := BitVec.toInt_lt (x := x)
  constructor <;> omega

/-- Reading back the encoding of an integer that fits gives the integer (R25). -/
theorem sval_encW {w : Nat} (hw : 0 < w) (v : Int) (h : fitsW w v = true) : sval (encW w v) = v := by
  rw [fitsW_iff] at h
  rw [sval, encW, BitVec.toInt_ofInt_eq_self hw (by omega) (by omega)]

theorem encW_sval {w : Nat} (x : BitVec w) : encW w (sval x) = x := by
  simp [encW, sval]

theorem encW_zero (w : Nat) : encW w 0 = 0 := by
  simp [encW]

/-- The bounds of an operand. -/
theorem sval_bounds {w : Nat} (x : BitVec w) :
    -(2 ^ (w - 1) : Int) ≤ sval x ∧ sval x ≤ 2 ^ (w - 1) - 1 := (fitsW_iff w _).mp (fitsW_sval x)

end Sys2Proof.Machine
end

