-- ==== Sys2Proof/Laws/Ops.lean ====
section
/-! SUPPORT. What each shared operation can do, once: completion, the engine's turn for a command, the register window
and the bus port. Later proofs cite these and do not unfold the operations. -/

namespace Sys2Proof.Machine

/-! ## Completion (R113, R115, R250) -/

theorem resultSlot_eq_getD (w : Nat) (vs : List Int) (j : Nat) : resultSlot w vs j = encW w (vs.getD j 0) := by
  rw [resultSlot, List.getD_eq_getElem?_getD]
  cases vs[j]? with
  | none => simp [encW_zero]
  | some v => rfl

theorem completeOk_eq (vs : List Int) (s : State) : completeOk vs s = s.withRoots vs := by
  simp only [completeOk, State.withRoots, State.withResults, resultSlot_eq_getD]

theorem completeFail_eq (c : ErrCode) (s : State) : completeFail c s = s.withError c := rfl

/-- Results that fit are written (R113). -/
theorem complete_ok (vs : List Int) (s : State) (h : ∀ v ∈ vs, fitsW s.cfg.width v = true) :
    complete (.ok vs) s = s.withRoots vs := by
  rw [complete, rangeCheck, if_pos (List.all_eq_true.mpr h)]
  exact completeOk_eq vs s

/-- A result that does not fit is RANGE (R115). -/
theorem complete_range (vs : List Int) (s : State) (h : ∃ v ∈ vs, fitsW s.cfg.width v = false) :
    complete (.ok vs) s = s.withError .range := by
  obtain ⟨v, hv, hf⟩ := h
  have : ¬ vs.all (fitsW s.cfg.width) = true := fun hall => by
    have := List.all_eq_true.mp hall v hv
    simp [hf] at this
  rw [complete, rangeCheck, if_neg this]
  exact completeFail_eq .range s

theorem complete_fail (c : ErrCode) (s : State) : complete (.fail c) s = s.withError c := rfl

/-- Everything a completion can do. -/
theorem complete_cases (o : CmdOutcome) (s : State) :
    (∃ vs, o = .ok vs ∧ (∀ v ∈ vs, fitsW s.cfg.width v = true) ∧ complete o s = s.withRoots vs) ∨
      (∃ vs, o = .ok vs ∧ complete o s = s.withError .range) ∨
      (∃ c, o = .fail c ∧ complete o s = s.withError c) := by
  cases o with
  | ok vs =>
    by_cases h : ∀ v ∈ vs, fitsW s.cfg.width v = true
    · exact .inl ⟨vs, rfl, h, complete_ok vs s h⟩
    · refine .inr (.inl ⟨vs, rfl, complete_range vs s ?_⟩)
      push Not at h
      obtain ⟨v, hv, hf⟩ := h
      exact ⟨v, hv, by simpa using hf⟩
  | fail c => exact .inr (.inr ⟨c, rfl, rfl⟩)

/-! ## The engine's turn for a command -/

theorem runCommand_idle (s : State) (F : Snapshot s.cfg.width → List (BitVec s.cfg.width) → Option CmdOutcome)
    (h : s.phase = .idle) : runCommand s F = s := by
  simp [runCommand, h]

/-- An outcome completes the running command (R112, R113). -/
theorem runCommand_done (s : State) (F : Snapshot s.cfg.width → List (BitVec s.cfg.width) → Option CmdOutcome)
    (snap : Snapshot s.cfg.width) (draws : List (BitVec s.cfg.width)) (o : CmdOutcome)
    (h : s.phase = .busy snap draws) (ho : F snap draws = some o) : runCommand s F = complete o s := by
  simp [runCommand, h, ho]

/-- Without an outcome the engine waits (R181). -/
theorem runCommand_waits (s : State) (F : Snapshot s.cfg.width → List (BitVec s.cfg.width) → Option CmdOutcome)
    (snap : Snapshot s.cfg.width) (draws : List (BitVec s.cfg.width)) (h : s.phase = .busy snap draws)
    (ho : F snap draws = none) : runCommand s F = s := by
  simp [runCommand, h, ho]

/-! ## The register window (R21, R60) -/

/-- A window offset's bus address leads back to the offset. -/
@[simp] theorem windowOffset_base_add (c : Config) (off : Offset) : windowOffset c (c.base + off.toNat) = some off := by
  have h := off.isLt
  rw [windowOffset, if_pos (by omega)]
  simp

theorem windowOffset_eq_none_iff (c : Config) (addr : Nat) :
    windowOffset c addr = none ↔ addr < c.base ∨ c.base + 4096 ≤ addr := by
  rw [windowOffset]
  split
  · simp; omega
  · simp; omega

theorem width_pos (c : Config) : 0 < c.width := by
  have := c.one_le_opwWords
  show 0 < 32 * c.opwWords
  omega

end Sys2Proof.Machine
end

