-- ==== Sys2Proof/Laws/Window.lean ====
section
/-! SUPPORT. The register window by offset (spec/10_state.md R21, spec/20_memory.md R63): what each offset names, and what
reading and writing it does. -/

namespace Sys2Proof.Machine

/-! ## The four registers of the first page -/

@[simp] theorem target_id (k : Nat) : target k 0x000 = .id := rfl
@[simp] theorem target_ctrl (k : Nat) : target k 0x004 = .ctrl := rfl
@[simp] theorem target_cmd (k : Nat) : target k 0x008 = .cmd := rfl
@[simp] theorem target_status (k : Nat) : target k 0x00C = .status := rfl

theorem regRead_id (s : State) : regRead 0x000 s = idWord s.cfg := rfl
theorem regRead_ctrl (s : State) : regRead 0x004 s = ctrlWord s := rfl
theorem regRead_cmd (s : State) : regRead 0x008 s = s.cmd := rfl
theorem regRead_status (s : State) : regRead 0x00C s = statusWord s := rfl

theorem regWrite_id (v : Word) (s : State) : regWrite 0x000 v s = s := rfl
theorem regWrite_ctrl (v : Word) (s : State) : regWrite 0x004 v s = writeCtrl v s := rfl
theorem regWrite_cmd (v : Word) (s : State) : regWrite 0x008 v s = writeCmd v s := rfl
theorem regWrite_status (v : Word) (s : State) : regWrite 0x00C v s = writeStatus v s := rfl

/-- A CMD write while IDLE (R110). -/
theorem writeCmd_idle (v : Word) (s : State) (h : s.phase = .idle) : writeCmd v s = accept v s := by
  simp [writeCmd, h]

/-- A CMD write while BUSY (R111). -/
theorem writeCmd_busy (v : Word) (s : State) (h : busyBit s = true) : writeCmd v s = { s with ovr := true } := by
  unfold writeCmd
  split
  · next hp => simp [busyBit, hp] at h
  · rfl

/-- A CTRL write with bit 1 = 1 (R29). -/
theorem writeCtrl_srst (v : Word) (s : State) (h : v.getLsbD 1 = true) : writeCtrl v s = resetCore s := by
  rw [writeCtrl, if_pos h]

/-- A CTRL write with bit 1 = 0 (R28). -/
theorem writeCtrl_ie (v : Word) (s : State) (h : v.getLsbD 1 = false) :
    writeCtrl v s = { s with ie := v.getLsbD 0 } := by
  rw [writeCtrl, h]
  rfl

theorem ctrlWord_eq (s : State) : ctrlWord s = if s.ie then 1 else 0 := by
  rw [ctrlWord]
  cases s.ie <;> rfl

/-! ## Operand and result words -/

/-- The offset of word i of an operand register, as a number. -/
theorem operand_offset_toNat (x : OpReg) (i : Nat) (h : i < 64) :
    (RegName.operand x i).offset.toNat = operandBase x + 4 * i := by
  cases x <;> simp [RegName.offset, operandBase] <;> omega

/-- The offset of word i of a result register, as a number. -/
theorem result_offset_toNat (j : ResReg) (i : Nat) (h : i < 64) :
    (RegName.result j i).offset.toNat = resultBase j + 4 * i := by
  cases j <;> simp [RegName.offset, resultBase] <;> omega

/-- An offset is what its page and word say. -/
theorem target_of_page (k : Nat) (off : Offset) (page i : Nat) (h : off.toNat = 0x100 * page + 4 * i) (hi : i < 64) :
    target k off = pageTarget k page i := by
  rw [target, show off.toNat / 0x100 = page by omega, show off.toNat % 0x100 / 4 = i by omega]

/-- Word i < K of an operand window names that word (R21). -/
theorem target_operand (k : Nat) (off : Offset) (x : OpReg) (i : Nat) (hk : k ≤ 64) (hi : i < k)
    (h : off.toNat = operandBase x + 4 * i) : target k off = .operand x i := by
  cases x <;> simp only [operandBase] at h <;>
    [rw [target_of_page k off 1 i (by omega) (by omega)]; rw [target_of_page k off 2 i (by omega) (by omega)];
     rw [target_of_page k off 3 i (by omega) (by omega)]; rw [target_of_page k off 4 i (by omega) (by omega)]] <;>
    simp [pageTarget, windowTarget, hi]

/-- Word i < K of a result window names that word (R21). -/
theorem target_result (k : Nat) (off : Offset) (j : ResReg) (i : Nat) (hk : k ≤ 64) (hi : i < k)
    (h : off.toNat = resultBase j + 4 * i) : target k off = .result j i := by
  cases j <;> simp only [resultBase] at h <;>
    [rw [target_of_page k off 8 i (by omega) (by omega)]; rw [target_of_page k off 9 i (by omega) (by omega)];
     rw [target_of_page k off 10 i (by omega) (by omega)]; rw [target_of_page k off 11 i (by omega) (by omega)]] <;>
    simp [pageTarget, windowTarget, hi]

/-- A reserved offset names nothing (R63). -/
theorem target_reserved (k : Nat) (off : Offset) (h4 : off.toNat % 4 = 0) (h : reservedOffset k off) :
    target k off = .reserved := by
  have hlt := off.isLt
  have hpage : off.toNat / 0x100 < 16 := by omega
  have hword : off.toNat % 0x100 / 4 < 64 := by omega
  rw [target]
  unfold reservedOffset at h
  generalize hp : off.toNat / 0x100 = page at *
  generalize hi : off.toNat % 0x100 / 4 = i at *
  interval_cases page
  · have : 4 ≤ i := by omega
    simp only [pageTarget]
    unfold controlTarget
    split <;> first | omega | rfl
  all_goals first | rfl | (simp only [pageTarget, windowTarget]; rw [if_neg (by omega)])

/-- A result word lies in 0x800..0xBFF. -/
theorem range_of_target_result (k : Nat) (off : Offset) (j : ResReg) (i : Nat) (h : target k off = .result j i) :
    0x800 ≤ off.toNat ∧ off.toNat < 0xC00 := by
  by_contra hn
  have hpage : off.toNat / 0x100 < 8 ∨ 12 ≤ off.toNat / 0x100 := by omega
  rw [target] at h
  generalize off.toNat / 0x100 = page at *
  generalize off.toNat % 0x100 / 4 = w at *
  unfold pageTarget at h
  split at h
  · unfold controlTarget at h
    split at h <;> cases h
  all_goals first | omega | (unfold windowTarget at h; split at h <;> cases h) | cases h

/-- Each of the four control registers has one offset only, among those that are multiples of 4. -/
theorem offset_of_target (k : Nat) (off : Offset) (h4 : off.toNat % 4 = 0) :
    (target k off = .id → off = 0x000) ∧ (target k off = .ctrl → off = 0x004) ∧
      (target k off = .cmd → off = 0x008) ∧ (target k off = .status → off = 0x00C) := by
  have hlt := off.isLt
  have hoff : off.toNat = 0x100 * (off.toNat / 0x100) + 4 * (off.toNat % 0x100 / 4) := by omega
  rw [target]
  generalize off.toNat / 0x100 = page at *
  generalize off.toNat % 0x100 / 4 = w at *
  refine ⟨fun h => ?_, fun h => ?_, fun h => ?_, fun h => ?_⟩ <;> apply BitVec.eq_of_toNat_eq <;>
    unfold pageTarget at h <;> split at h
  all_goals first
    | (unfold windowTarget at h; split at h <;> cases h)
    | (unfold controlTarget at h; split at h <;> first | (cases h; done) | exact hoff)
    | cases h

theorem offset_of_target_status (k : Nat) (off : Offset) (h4 : off.toNat % 4 = 0) (h : target k off = .status) :
    off = 0x00C := (offset_of_target k off h4).2.2.2 h

theorem regRead_operand (s : State) (off : Offset) (x : OpReg) (i : Nat) (hi : i < s.cfg.opwWords)
    (h : off.toNat = operandBase x + 4 * i) : regRead off s = getWord (operand s x) i := by
  rw [regRead, target_operand _ off x i s.cfg.opwWords_le hi h]

theorem regRead_result (s : State) (off : Offset) (j : ResReg) (i : Nat) (hi : i < s.cfg.opwWords)
    (h : off.toNat = resultBase j + 4 * i) : regRead off s = getWord (result s j) i := by
  rw [regRead, target_result _ off j i s.cfg.opwWords_le hi h]

theorem regRead_reserved (s : State) (off : Offset) (h4 : off.toNat % 4 = 0)
    (h : reservedOffset s.cfg.opwWords off) : regRead off s = 0 := by
  rw [regRead, target_reserved _ off h4 h]

theorem regWrite_operand (s : State) (off : Offset) (x : OpReg) (i : Nat) (v : Word) (hi : i < s.cfg.opwWords)
    (h : off.toNat = operandBase x + 4 * i) : regWrite off v s = writeOperandWord s x i v := by
  rw [regWrite, target_operand _ off x i s.cfg.opwWords_le hi h]

theorem regWrite_reserved (s : State) (off : Offset) (v : Word) (h4 : off.toNat % 4 = 0)
    (h : reservedOffset s.cfg.opwWords off) : regWrite off v s = s := by
  rw [regWrite, target_reserved _ off h4 h]

/-- Reads see nothing of a command's end but STATUS and the result registers. -/
theorem regRead_of_completion (off : Offset) (s : State) (r0 r1 r2 r3 : BitVec s.cfg.width) (k : BitVec 3) (c : ErrCode)
    (d : Bool) (p : Phase s.cfg.width) (h4 : off.toNat % 4 = 0) (h1 : off ≠ 0x00C)
    (h2 : ¬ (0x800 ≤ off.toNat ∧ off.toNat < 0xC00)) :
    regRead off { s with
      res0 := r0, res1 := r1, res2 := r2, res3 := r3, rcount := k, errcode := c, done := d, phase := p } =
      regRead off s := by
  unfold regRead
  dsimp only
  cases h : target s.cfg.opwWords off with
  | id => rfl
  | ctrl => rfl
  | cmd => rfl
  | status => exact absurd (offset_of_target_status _ off h4 h) h1
  | operand x i => cases x <;> rfl
  | result j i => exact absurd (range_of_target_result _ off j i h) h2
  | reserved => rfl

end Sys2Proof.Machine
end

