-- ==== Sys2Proof/Laws/Step.lean ====
section
/-! SUPPORT. Everything a command, a bus access and a step can do, once each. -/

namespace Sys2Proof.Machine

/-! ## Commands -/

/-- F_M of R112 for every command. -/
def outcomeOf {w : Nat} (i : Instr) (snap : Snapshot w) (draws : List (BitVec w)) : Option CmdOutcome :=
  match i with
  | .modexp => some (modexpOutcome (sval snap.opa) (sval snap.opb) (sval snap.opc))
  | .egcd => some (egcdOutcome (sval snap.opa) (sval snap.opb))
  | .crt => some (crtOutcome (sval snap.opa) (sval snap.opb) (sval snap.opc) (sval snap.opd))
  | .fermat => fermatOutcome (sval snap.opa) (sval snap.opb) draws
  | .msqrt => some (msqrtOutcome (sval snap.opa) (sval snap.opb))
  | .rsqrt => some (rsqrtOutcome (sval snap.opa) (sval snap.opb) (sval snap.opc))
  | .smooth => some (smoothOutcome (sval snap.opa))

/-- Every command is the engine's turn with its execution function (R112). -/
theorem exec_eq (i : Instr) (s : State) : exec i s = .next (runCommand s (outcomeOf i)) := by
  cases i <;> rfl

/-- A running command with an outcome completes. -/
theorem exec_done (i : Instr) (s : State) (snap : Snapshot s.cfg.width) (draws : List (BitVec s.cfg.width))
    (o : CmdOutcome) (h : s.phase = .busy snap draws) (ho : outcomeOf i snap draws = some o) :
    exec i s = .next (complete o s) := by
  rw [exec_eq, runCommand_done s _ snap draws o h ho]

/-- A running command without an outcome waits. -/
theorem exec_waits (i : Instr) (s : State) (snap : Snapshot s.cfg.width) (draws : List (BitVec s.cfg.width))
    (h : s.phase = .busy snap draws) (ho : outcomeOf i snap draws = none) : exec i s = .next s := by
  rw [exec_eq, runCommand_waits s _ snap draws h ho]

theorem exec_idle (i : Instr) (s : State) (h : s.phase = .idle) : exec i s = .next s := by
  rw [exec_eq, runCommand_idle s _ h]

/-- Everything FERMAT can answer. -/
theorem fermatOutcome_cases {w : Nat} (n rounds : Int) (draws : List (BitVec w)) :
    fermatOutcome n rounds draws = none ∨ fermatOutcome n rounds draws = some (.fail .badRounds) ∨
      ∃ v i a, fermatOutcome n rounds draws = some (.ok [v, i, a]) := by
  by_cases hodd : 1 ≤ rounds ∧ 5 ≤ n ∧ n % 2 = 1
  · rw [fermatOutcome_of_odd n rounds draws hodd.1 hodd.2.1 hodd.2.2]
    rcases fermatTrials_cases n rounds.toNat 0 0 draws with h | ⟨ps, rest, -, -, -, h⟩ | ⟨ps, r, rest, -, -, -, -, h⟩
    · exact .inl h
    · exact .inr (.inr ⟨_, _, _, h⟩)
    · exact .inr (.inr ⟨_, _, _, h⟩)
  · unfold fermatOutcome
    split
    · exact .inr (.inl rfl)
    · split
      · exact .inr (.inr ⟨_, _, _, rfl⟩)
      · split
        · exact .inr (.inr ⟨_, _, _, rfl⟩)
        · split
          · exact .inr (.inr ⟨_, _, _, rfl⟩)
          · omega

/-- At most four results (R112), and no error completion with the code of success (R251). -/
def CmdOutcome.legal : CmdOutcome → Prop
  | .ok vs => vs.length ≤ 4
  | .fail c => c ≠ .ok

theorem modexpOutcome_legal (b e m : Int) : (modexpOutcome b e m).legal := by
  unfold modexpOutcome
  split_ifs <;> simp [CmdOutcome.legal]

theorem egcdOutcome_legal (a b : Int) : (egcdOutcome a b).legal := by
  simp [egcdOutcome, CmdOutcome.legal]

theorem crtOutcome_legal (a b p q : Int) : (crtOutcome a b p q).legal := by
  unfold crtOutcome
  split_ifs <;> simp [CmdOutcome.legal]

theorem msqrtOutcome_legal (a p : Int) : (msqrtOutcome a p).legal := by
  have := msqrtFn_length a p
  unfold msqrtOutcome
  split_ifs <;> simp [CmdOutcome.legal]
  omega

theorem rsqrtOutcome_legal (c p q : Int) : (rsqrtOutcome c p q).legal := by
  have := rsqrtFn_length_le c p q
  unfold rsqrtOutcome
  split_ifs <;> simp [CmdOutcome.legal]
  omega

theorem smoothOutcome_legal (b : Int) : (smoothOutcome b).legal := by
  unfold smoothOutcome
  split_ifs <;> simp [CmdOutcome.legal]

/-- Every command has at most four results, and its errors are none of them OK (R38, R251). -/
theorem outcomeOf_legal {w : Nat} (i : Instr) (snap : Snapshot w) (draws : List (BitVec w)) (o : CmdOutcome)
    (h : outcomeOf i snap draws = some o) : o.legal := by
  cases i with
  | modexp => exact Option.some.inj h ▸ modexpOutcome_legal _ _ _
  | egcd => exact Option.some.inj h ▸ egcdOutcome_legal _ _
  | crt => exact Option.some.inj h ▸ crtOutcome_legal _ _ _ _
  | fermat =>
    rcases fermatOutcome_cases (sval snap.opa) (sval snap.opb) draws with hf | hf | ⟨v, j, a, hf⟩
    · exact absurd (hf.symm.trans h) (by simp)
    · exact Option.some.inj (hf.symm.trans h) ▸ (by simp [CmdOutcome.legal])
    · exact Option.some.inj (hf.symm.trans h) ▸ (by simp [CmdOutcome.legal])
  | msqrt => exact Option.some.inj h ▸ msqrtOutcome_legal _ _
  | rsqrt => exact Option.some.inj h ▸ rsqrtOutcome_legal _ _ _
  | smooth => exact Option.some.inj h ▸ smoothOutcome_legal _

/-- Everything the engine's turn for a command can do. -/
theorem exec_cases (i : Instr) (s t : State) (h : exec i s = .next t) :
    t = s ∨ busyBit s = true ∧
      ((∃ vs : List Int, vs.length ≤ 4 ∧ (∀ v ∈ vs, fitsW s.cfg.width v = true) ∧ t = s.withRoots vs) ∨
        (∃ c, c ≠ .ok ∧ t = s.withError c)) := by
  cases hp : s.phase with
  | idle =>
    rw [exec_idle i s hp] at h
    exact .inl (Host.Outcome.next.inj h).symm
  | busy snap draws =>
    cases ho : outcomeOf i snap draws with
    | none =>
      rw [exec_waits i s snap draws hp ho] at h
      exact .inl (Host.Outcome.next.inj h).symm
    | some o =>
      rw [exec_done i s snap draws o hp ho] at h
      obtain rfl := Host.Outcome.next.inj h
      refine .inr ⟨by simp [busyBit, hp], ?_⟩
      have hl := outcomeOf_legal i snap draws o ho
      rcases complete_cases o s with ⟨vs, rfl, hf, hc⟩ | ⟨vs, rfl, hc⟩ | ⟨c, rfl, hc⟩
      · exact .inl ⟨vs, hl, hf, hc⟩
      · exact .inr ⟨.range, by simp, hc⟩
      · exact .inr ⟨c, hl, hc⟩

/-! ## The bus port -/

/-- BUSY is 0 exactly in the phase IDLE (R33). -/
theorem busyBit_eq_false_iff (s : State) : busyBit s = false ↔ s.phase = .idle := by
  cases hp : s.phase <;> simp [busyBit, hp]

/-- Everything a write to the window can do, with the offset that does it. -/
theorem regWrite_cases (off : Offset) (v : Word) (s : State) (h4 : off.toNat % 4 = 0) :
    (regWrite off v s = s ∧ off ≠ 0x004 ∧ off ≠ 0x008 ∧ off ≠ 0x00C) ∨
      (s.phase = .idle ∧ off = 0x008 ∧ regWrite off v s = accept v s) ∨
      (busyBit s = true ∧ off = 0x008 ∧ regWrite off v s = { s with ovr := true }) ∨
      (off = 0x00C ∧ regWrite off v s = writeStatus v s) ∨
      (off = 0x004 ∧ v.getLsbD 1 = true ∧ regWrite off v s = resetCore s) ∨
      (off = 0x004 ∧ v.getLsbD 1 = false ∧ regWrite off v s = { s with ie := v.getLsbD 0 }) ∨
      (∃ a b c d, regWrite off v s = { s with opa := a, opb := b, opc := c, opd := d } ∧
        off ≠ 0x004 ∧ off ≠ 0x008 ∧ off ≠ 0x00C) := by
  obtain ⟨-, h2, h3, h5⟩ := offset_of_target s.cfg.opwWords off h4
  have hne : (∀ t, target s.cfg.opwWords off = t → t ≠ .ctrl ∧ t ≠ .cmd ∧ t ≠ .status →
      off ≠ 0x004 ∧ off ≠ 0x008 ∧ off ≠ 0x00C) := by
    rintro t ht ⟨n1, n2, n3⟩
    refine ⟨?_, ?_, ?_⟩ <;> rintro rfl
    · exact n1 (ht.symm.trans (target_ctrl _))
    · exact n2 (ht.symm.trans (target_cmd _))
    · exact n3 (ht.symm.trans (target_status _))
  unfold regWrite
  cases ht : target s.cfg.opwWords off with
  | id => exact .inl ⟨rfl, hne _ ht (by simp)⟩
  | ctrl =>
    cases hb : v.getLsbD 1 with
    | true => exact .inr (.inr (.inr (.inr (.inl ⟨h2 ht, rfl, writeCtrl_srst v s hb⟩))))
    | false => exact .inr (.inr (.inr (.inr (.inr (.inl ⟨h2 ht, rfl, writeCtrl_ie v s hb⟩)))))
  | cmd =>
    cases hb : busyBit s with
    | false =>
      have hp := (busyBit_eq_false_iff s).mp hb
      exact .inr (.inl ⟨hp, h3 ht, writeCmd_idle v s hp⟩)
    | true => exact .inr (.inr (.inl ⟨rfl, h3 ht, writeCmd_busy v s hb⟩))
  | status => exact .inr (.inr (.inr (.inl ⟨h5 ht, rfl⟩)))
  | operand x i =>
    refine .inr (.inr (.inr (.inr (.inr (.inr ?_)))))
    cases x <;> exact ⟨_, _, _, _, rfl, hne _ ht (by simp)⟩
  | result j i => exact .inl ⟨rfl, hne _ ht (by simp)⟩
  | reserved => exact .inl ⟨rfl, hne _ ht (by simp)⟩

/-- A legal read (R61). -/
theorem busAccess_regRead (s : State) (off : Offset) (h : off.toNat % 4 = 0) :
    busAccess (Access.regRead s.cfg off) s = .next (answer (.readOk (regRead off s)) s) := by
  simp [busAccess, Access.regRead, legalShape, h]

/-- A legal write (R61). -/
theorem busAccess_regWrite (s : State) (off : Offset) (v : Word) (h : off.toNat % 4 = 0) :
    busAccess (Access.regWrite s.cfg off v) s = .next (answer .writeOk (regWrite off v s)) := by
  simp [busAccess, Access.regWrite, legalShape, h]

/-! ## Steps -/

theorem step_nil (s : State) (h : s.inputs = []) : step s = engineTurn s := by
  simp [step, h]

theorem step_cons (s : State) (ev : Event s.cfg.width) (rest : List (Event s.cfg.width))
    (h : s.inputs = ev :: rest) : step s = runEvent { s with inputs := rest } ev := by
  simp [step, h]

/-- The engine's turn, by an entry of `inputs`. -/
theorem step_engine (s : State) (rest : List (Event s.cfg.width)) (h : s.inputs = .engine :: rest) :
    step s = engineTurn { s with inputs := rest } := step_cons s _ rest h

/-- A witness offer (R180). -/
theorem step_witness (s : State) (r : BitVec s.cfg.width) (rest : List (Event s.cfg.width))
    (h : s.inputs = .witness r :: rest) : step s = .next (offerWitness { s with inputs := rest } r) :=
  step_cons s _ rest h

/-- A hardware reset (R291). -/
theorem step_rst (s : State) (rest : List (Event s.cfg.width)) (h : s.inputs = .rst :: rest) :
    step s = .next (resetCore { s with inputs := rest }) := step_cons s _ rest h

/-- A bus access. -/
theorem step_access (s : State) (a : Access) (rest : List (Event s.cfg.width)) (h : s.inputs = .access a :: rest) :
    step s = busAccess a { s with inputs := rest } := step_cons s _ rest h

/-- A legal write (R61). -/
theorem step_regWrite (s : State) (off : Offset) (v : Word) (rest : List (Event s.cfg.width))
    (h4 : off.toNat % 4 = 0) (h : s.inputs = .access (Access.regWrite s.cfg off v) :: rest) :
    step s = .next (answer .writeOk (regWrite off v { s with inputs := rest })) := by
  rw [step_access s _ rest h]
  exact busAccess_regWrite { s with inputs := rest } off v h4

/-- A legal read (R61). -/
theorem step_regRead (s : State) (off : Offset) (rest : List (Event s.cfg.width)) (h4 : off.toNat % 4 = 0)
    (h : s.inputs = .access (Access.regRead s.cfg off) :: rest) :
    step s = .next { s with inputs := rest, resp := .readOk (regRead off { s with inputs := rest }) } := by
  rw [step_access s _ rest h]
  exact busAccess_regRead { s with inputs := rest } off h4

/-- A write of one operand word (R23). -/
theorem step_writeOperand (s : State) (x : OpReg) (i : Nat) (v : Word) (rest : List (Event s.cfg.width))
    (hi : i < s.cfg.opwWords) (h : s.inputs = .access (Access.regWrite s.cfg (RegName.operand x i).offset v) :: rest) :
    step s = .next (answer .writeOk (writeOperandWord { s with inputs := rest } x i v)) := by
  have hoff := operand_offset_toNat x i (lt_of_lt_of_le hi s.cfg.opwWords_le)
  have h4 : (RegName.operand x i).offset.toNat % 4 = 0 := by
    rw [hoff]
    cases x <;> simp only [operandBase] <;> omega
  rw [step_regWrite s _ v rest h4 h]
  exact congrArg (fun t => Host.Outcome.next (answer .writeOk t)) (regWrite_operand { s with inputs := rest } _ x i v hi hoff)

/-- The engine's turn on a valid word (R92). -/
theorem engineTurn_valid (s : State) (snap : Snapshot s.cfg.width) (draws : List (BitVec s.cfg.width)) (i : Instr)
    (h : s.phase = .busy snap draws) (hd : decode snap.word = .ok i) : engineTurn s = exec i s := by
  simp [engineTurn, h, hd]

/-- The engine's turn on an illegal word (R92). -/
theorem engineTurn_illegal (s : State) (snap : Snapshot s.cfg.width) (draws : List (BitVec s.cfg.width))
    (e : DecodeError) (h : s.phase = .busy snap draws) (hd : decode snap.word = .error e) :
    engineTurn s = .next (s.withError .badCmd) := by
  simp only [engineTurn, h, hd, completeBadCmd]
  rw [runCommand_done s _ snap draws (.fail .badCmd) h rfl, complete_fail]

theorem engineTurn_idle (s : State) (h : s.phase = .idle) : engineTurn s = .next s := by
  simp [engineTurn, h]

/-- Everything the engine's turn can do. -/
theorem engineTurn_cases (s : State) :
    ∃ t, engineTurn s = .next t ∧ (t = s ∨ busyBit s = true ∧
      ((∃ vs : List Int, vs.length ≤ 4 ∧ (∀ v ∈ vs, fitsW s.cfg.width v = true) ∧ t = s.withRoots vs) ∨
        (∃ c, c ≠ .ok ∧ t = s.withError c))) := by
  cases hp : s.phase with
  | idle => exact ⟨s, engineTurn_idle s hp, .inl rfl⟩
  | busy snap draws =>
    cases hd : decode snap.word with
    | error e =>
      exact ⟨_, engineTurn_illegal s snap draws e hp hd, .inr ⟨by simp [busyBit, hp], .inr ⟨.badCmd, by simp, rfl⟩⟩⟩
    | ok i =>
      rw [engineTurn_valid s snap draws i hp hd]
      exact ⟨_, exec_eq i s, exec_cases i s _ (exec_eq i s)⟩

theorem runSteps_zero (s : State) : runSteps 0 s = .next s := rfl

/-- One step of a machine's run that goes on. -/
theorem core_run_succ (m : Host.Core) (k : Nat) (s t : m.State) (h : m.step s = .next t) :
    m.run (k + 1) s = m.run k t := by
  simp [Host.Core.run, h]

/-- A run of k + 1 steps is a step and a run of k. -/
theorem runSteps_succ (k : Nat) (s t : State) (h : step s = .next t) : runSteps (k + 1) s = runSteps k t :=
  core_run_succ Sys2Proof.core k s t h

/-- Everything an offered witness can do (R180). -/
theorem offerWitness_cases (s : State) (r : BitVec s.cfg.width) :
    (witReady s = false ∧ offerWitness s r = s) ∨
      (∃ snap draws, s.phase = .busy snap draws ∧ awaitsDraw snap draws = true ∧ witReady s = true ∧
        offerWitness s r = { s with phase := .busy snap (draws ++ [r]) }) := by
  cases hp : s.phase with
  | idle => exact .inl ⟨by simp [witReady, hp], by simp [offerWitness, hp]⟩
  | busy snap draws =>
    cases ha : awaitsDraw snap draws with
    | false => exact .inl ⟨by simp [witReady, hp, ha], by simp [offerWitness, hp, ha]⟩
    | true =>
      exact .inr ⟨snap, draws, rfl, ha, by simp [witReady, hp, ha], by simp [offerWitness, hp, ha]⟩

/-- A command waits for a draw exactly when it is a FERMAT without an outcome. -/
theorem awaitsDraw_iff {w : Nat} (snap : Snapshot w) (draws : List (BitVec w)) :
    awaitsDraw snap draws = true ↔
      decode snap.word = .ok .fermat ∧ fermatOutcome (sval snap.opa) (sval snap.opb) draws = none := by
  unfold awaitsDraw
  split
  · next h => simp [h]
  · next h => simp; intro hf; exact absurd hf (by simpa using h)

theorem witReady_inputs (s : State) (ins : List (Event s.cfg.width)) :
    witReady { s with inputs := ins } = witReady s := by
  cases hp : s.phase <;> simp [witReady, hp]

theorem busyBit_inputs (s : State) (ins : List (Event s.cfg.width)) :
    busyBit { s with inputs := ins } = busyBit s := by
  cases hp : s.phase <;> simp [busyBit, hp]

/-- While a draw is waited for the engine's turn changes nothing (R181). -/
theorem engineTurn_waits (s : State) (h : witReady s = true) : engineTurn s = .next s := by
  unfold witReady at h
  split at h
  · cases h
  · next snap draws hp =>
    obtain ⟨h1, h2⟩ := (awaitsDraw_iff _ _).mp h
    rw [engineTurn_valid s snap draws .fermat hp h1, exec_waits .fermat _ snap draws hp h2]

/-- The bus address of a window offset. -/
theorem addr_of_windowOffset (c : Config) (addr : Nat) (off : Offset) (h : windowOffset c addr = some off) :
    addr = c.base + off.toNat := by
  unfold windowOffset at h
  split at h
  · cases h
    simp
    omega
  · cases h

/-- A bus access stops only at an address outside the window. -/
theorem busAccess_fault (a : Access) (s : State) (h : busAccess a s = .fault .outsideWindow) :
    match a with
    | .read addr _ => addr < s.cfg.base ∨ s.cfg.base + 4096 ≤ addr
    | .write addr _ _ _ => addr < s.cfg.base ∨ s.cfg.base + 4096 ≤ addr := by
  cases a with
  | read addr size =>
    simp only [busAccess] at h
    split at h
    · next hn => exact (windowOffset_eq_none_iff _ _).mp hn
    · split at h <;> cases h
  | write addr size be d =>
    simp only [busAccess] at h
    split at h
    · next hn => exact (windowOffset_eq_none_iff _ _).mp hn
    · split at h <;> cases h

/-- Everything a bus access can do: it stops outside the window, it only answers, or it is a legal write, which answers
and does what a write to the window does. -/
theorem busAccess_cases (a : Access) (s : State) :
    busAccess a s = .fault .outsideWindow ∨
      (∃ r, busAccess a s = .next (answer r s) ∧
        ∀ off v, off.toNat % 4 = 0 → a ≠ Access.regWrite s.cfg off v) ∨
      (∃ off v, off.toNat % 4 = 0 ∧ a = Access.regWrite s.cfg off v ∧
        busAccess a s = .next (answer .writeOk (regWrite off v s))) := by
  cases a with
  | read addr size =>
    have hn : ∀ (off : Offset) (v : Word), off.toNat % 4 = 0 → Access.read addr size ≠ Access.regWrite s.cfg off v := by
      simp [Access.regWrite]
    simp only [busAccess]
    split
    · exact .inl rfl
    · split <;> exact .inr (.inl ⟨_, rfl, hn⟩)
  | write addr size be d =>
    simp only [busAccess]
    split
    · exact .inl rfl
    · next off ho =>
      have ha := addr_of_windowOffset _ _ _ ho
      split
      · next hl =>
        simp only [legalShape, Bool.and_eq_true, beq_iff_eq] at hl
        obtain ⟨⟨h1, rfl⟩, rfl⟩ := hl
        exact .inr (.inr ⟨off, d, h1, by rw [ha]; rfl, rfl⟩)
      · next hl =>
        refine .inr (.inl ⟨_, rfl, fun off' v h4 he => hl ?_⟩)
        simp only [Access.regWrite, Access.write.injEq] at he
        obtain ⟨h1, rfl, rfl, -⟩ := he
        obtain rfl : off = off' := BitVec.eq_of_toNat_eq (by omega)
        simp [legalShape, h4]

/-- Everything a step can do, by the turn it takes. -/
theorem step_cases (s t : State) (h : step s = .next t) :
    (s.inputs = [] ∧ engineTurn s = .next t) ∨
      ∃ ev rest, s.inputs = ev :: rest ∧
        ((ev = .engine ∧ engineTurn { s with inputs := rest } = .next t) ∨
          (∃ r, ev = .witness r ∧ t = offerWitness { s with inputs := rest } r) ∨
          (ev = .rst ∧ t = resetCore { s with inputs := rest }) ∨
          (∃ a r, ev = .access a ∧ t = answer r { s with inputs := rest } ∧
            ∀ off v, off.toNat % 4 = 0 → a ≠ Access.regWrite s.cfg off v) ∨
          (∃ off v, off.toNat % 4 = 0 ∧ ev = .access (Access.regWrite s.cfg off v) ∧
            t = answer .writeOk (regWrite off v { s with inputs := rest }))) := by
  cases hi : s.inputs with
  | nil => exact .inl ⟨rfl, (step_nil s hi).symm.trans h⟩
  | cons ev rest =>
    refine .inr ⟨ev, rest, rfl, ?_⟩
    rw [step_cons s ev rest hi] at h
    cases ev with
    | engine => exact .inl ⟨rfl, h⟩
    | witness r => exact .inr (.inl ⟨r, rfl, (Host.Outcome.next.inj h).symm⟩)
    | rst => exact .inr (.inr (.inl ⟨rfl, (Host.Outcome.next.inj h).symm⟩))
    | access a =>
      simp only [runEvent] at h
      rcases busAccess_cases a { s with inputs := rest } with h' | ⟨r, h', hn⟩ | ⟨off, v, h4, ha, h'⟩
      · rw [h'] at h
        cases h
      · exact .inr (.inr (.inr (.inl ⟨a, r, rfl, Host.Outcome.next.inj (h.symm.trans h'), hn⟩)))
      · exact .inr (.inr (.inr (.inr ⟨off, v, h4, by rw [ha], Host.Outcome.next.inj (h.symm.trans h')⟩)))

/-- A turn that is no legal write is a reset only by the `rst` input (R290). -/
theorem isReset_access_iff {w : Nat} (c : Config) (a : Access) :
    isReset (w := w) c (.access a) ↔ ∃ v : Word, v.getLsbD 1 = true ∧ a = Access.regWrite c 0x004 v := by
  simp [isReset]

end Sys2Proof.Machine
end

