-- ==== Sys2Proof/Laws/Invariant.lean ====
section
/-! SUPPORT. The ends of a command, a reset and a taken draw fit the invariant of Safety.lean. -/

namespace Sys2Proof.Machine

/-- A draw taken while it is waited for keeps the draws' part of the invariant (R42, R180). -/
theorem drawsTaken_snoc {w : Nat} (snap : Snapshot w) (draws : List (BitVec w)) (r : BitVec w)
    (h : drawsTaken snap draws) (ha : awaitsDraw snap draws = true) : drawsTaken snap (draws ++ [r]) := by
  intro k hk
  simp only [List.length_append, List.length_cons, List.length_nil] at hk
  rcases Nat.lt_or_ge k draws.length with hlt | hge
  · rw [List.take_append_of_le_length (by omega)]
    exact h k hlt
  · obtain rfl : k = draws.length := by omega
    simpa using ha

theorem inv_withError (s : State) (c : ErrCode) (hc : c ≠ .ok) : Inv (s.withError c) :=
  ⟨by simp [State.withError], fun _ => ⟨fun _ => rfl, fun h => absurd h hc⟩, fun _ _ h => nomatch h⟩

theorem inv_withRoots (s : State) (vs : List Int) (hv : vs.length ≤ 4) : Inv (s.withRoots vs) := by
  have hl : (BitVec.ofNat 3 vs.length).toNat = vs.length := by
    simp
    omega
  refine ⟨?_, fun _ => ⟨fun h => absurd rfl h, fun _ => ?_⟩, fun _ _ h => nomatch h⟩
  · simp only [State.withRoots, State.withResults, hl, hv]
  · simp only [State.withRoots, State.withResults, hl]
    refine ⟨fun h => ?_, fun h => ?_, fun h => ?_, fun h => ?_⟩ <;>
      (rw [List.getD_eq_getElem?_getD, List.getElem?_eq_none h]; exact encW_zero _)

theorem inv_resetCore (s : State) : Inv (resetCore s) :=
  ⟨by simp [resetCore, State.resetOf],
    fun _ => ⟨fun h => absurd rfl h, fun _ => ⟨fun _ => rfl, fun _ => rfl, fun _ => rfl, fun _ => rfl⟩⟩,
    fun _ _ h => nomatch h⟩

end Sys2Proof.Machine
end

