-- ==== Sys2Proof/Laws/PerInstr.lean ====
section
/-! SUPPORT. One statement about every command as syntax: its word has the fields of spec/30_encoding.md R90 and R91,
is valid, and its four bytes decode to it. -/

namespace Sys2Proof.Laws.EncodingFields

/-- RSVD is 0, OPCODE is 1 to 7, the word is valid (R92), and the bytes decode to the command, with nothing left over. -/
def Statement (i : Instr) : Prop :=
  rsvdField (encode i) = 0 ∧ 1 ≤ (opcodeField (encode i)).toNat ∧ (opcodeField (encode i)).toNat ≤ 7 ∧
    i.wellFormed = true ∧ decodeBytes (encodeBytes i) = .ok (i, [])

theorem modexp : Statement .modexp := by unfold Statement; decide
theorem egcd : Statement .egcd := by unfold Statement; decide
theorem crt : Statement .crt := by unfold Statement; decide
theorem fermat : Statement .fermat := by unfold Statement; decide
theorem msqrt : Statement .msqrt := by unfold Statement; decide
theorem rsqrt : Statement .rsqrt := by unfold Statement; decide
theorem smooth : Statement .smooth := by unfold Statement; decide

end Sys2Proof.Laws.EncodingFields
end

