-- ==== Sys2Proof/Laws/SmoothExponent.lean ====
section
/-! SUPPORT. smooth_fn is the product, over the primes up to B, of the largest power not exceeding B
(spec/44_smooth_exponent.md R230). -/

namespace Sys2Proof.Machine

/-- The inner loop of R230 ends at the largest power of p not exceeding B. -/
theorem primePowerLoop_eq (fuel e p bound : Nat) (hp : 2 ≤ p) (hle : p ^ e ≤ bound) (hf : bound < p ^ e + fuel) :
    primePowerLoop fuel (p ^ e) p bound = p ^ Nat.log p bound := by
  induction fuel generalizing e with
  | zero => omega
  | succ fuel ih =>
    simp only [primePowerLoop]
    rw [← pow_succ]
    split
    · next h =>
      have : p ^ e < p ^ (e + 1) := Nat.pow_lt_pow_right (by omega) (by omega)
      exact ih (e + 1) h (by omega)
    · next h =>
      rw [(Nat.log_eq_iff (Or.inr ⟨by omega, by have : 0 < p ^ e := Nat.pow_pos (by omega); omega⟩)).mpr
        ⟨hle, by omega⟩]

theorem primePowerLoop_start (p bound : Nat) (hp : 2 ≤ p) (hle : p ≤ bound) :
    primePowerLoop bound p p bound = p ^ Nat.log p bound := by
  simpa using primePowerLoop_eq bound 1 p bound hp (by simpa using hle) (by simp; omega)

/-- The outer loop of R230 multiplies the prime powers of its candidates. -/
theorem smoothLoop_eq (count p acc bound : Nat) (hp : 2 ≤ p) (hle : p + count ≤ bound + 1) :
    smoothLoop count p acc bound =
      acc * ∏ r ∈ (Finset.Ico p (p + count)).filter Nat.Prime, r ^ Nat.log r bound := by
  induction count generalizing p acc with
  | zero => simp [smoothLoop]
  | succ count ih =>
    have hins : Finset.Ico p (p + (count + 1)) = insert p (Finset.Ico (p + 1) (p + 1 + count)) := by
      rw [show p + (count + 1) = p + 1 + count by ring]
      exact (Finset.insert_Ico_add_one_left_eq_Ico (by omega)).symm
    rw [smoothLoop, ih (p + 1) _ (by omega) (by omega), hins, Finset.filter_insert]
    by_cases hpr : p.Prime
    · have hb : isPrimeNat p = true := (isPrimeNat_iff_prime p).mpr hpr
      rw [if_pos hpr, if_pos hb, Finset.prod_insert (by simp), primePowerLoop_start p bound hp (by omega), mul_assoc]
    · have hb : ¬ isPrimeNat p = true := fun h => hpr ((isPrimeNat_iff_prime p).mp h)
      rw [if_neg hpr, if_neg hb]

/-- smooth_fn(B) is the product over the primes p ≤ B of the largest power of p not exceeding B. -/
theorem smoothFn_eq (bound : Nat) :
    smoothFn bound = ∏ p ∈ (Finset.range (bound + 1)).filter Nat.Prime, p ^ Nat.log p bound := by
  rcases Nat.lt_or_ge bound 2 with h | h
  · have : (Finset.range (bound + 1)).filter Nat.Prime = ∅ := by
      refine Finset.filter_eq_empty_iff.mpr fun p hp hpr => ?_
      have := hpr.two_le
      have := Finset.mem_range.mp hp
      omega
    rw [this, smoothFn, show bound - 1 = 0 by omega]
    simp [smoothLoop]
  · rw [smoothFn, smoothLoop_eq _ _ _ _ le_rfl (by omega), one_mul]
    refine Finset.prod_congr (Finset.ext fun p => ?_) fun _ _ => rfl
    simp only [Finset.mem_filter, Finset.mem_Ico, Finset.mem_range]
    exact ⟨fun ⟨⟨_, h2⟩, h3⟩ => ⟨by omega, h3⟩, fun ⟨h1, h3⟩ => ⟨⟨h3.two_le, by omega⟩, h3⟩⟩

theorem smoothFn_pos (bound : Nat) : 0 < smoothFn bound := by
  rw [smoothFn_eq]
  exact Finset.prod_pos fun p hp => Nat.pow_pos (Finset.mem_filter.mp hp).2.pos

/-- smooth_fn does not decrease: a smaller bound's value divides a larger bound's. -/
theorem smoothFn_dvd (b c : Nat) (h : b ≤ c) : smoothFn b ∣ smoothFn c := by
  rw [smoothFn_eq, smoothFn_eq]
  refine (Finset.prod_dvd_prod_of_dvd _ _ fun p _ => pow_dvd_pow p (Nat.log_mono_right h)).trans ?_
  exact Finset.prod_dvd_prod_of_subset _ _ _ (Finset.filter_subset_filter _ (by
    intro p hp
    simp only [Finset.mem_range] at *
    omega))

theorem smoothFn_mono (b c : Nat) (h : b ≤ c) : smoothFn b ≤ smoothFn c :=
  Nat.le_of_dvd (smoothFn_pos c) (smoothFn_dvd b c h)

end Sys2Proof.Machine
end

