-- ==== Sys2Proof/Tests/Slice0.lean ====
section
/-! SUPPORT. Tests, with expected results from the spec's own vectors (spec/95_test_vectors.md, K = 2, W = 64) and
encodings, and for every statement with hypotheses a witness: concrete values that meet them together, clause by clause,
at the ends of their ranges. That a state made by `running` is BUSY with its snapshot is `running_phase`. -/

namespace Sys2Proof.Tests

-- One theorem at a time: each `decide +kernel` waits for all before it, and a waiting thread holds its stack.
set_option Elab.async false

open Machine

/-! ## Helpers -/

/-- The width of the reference configuration, 64. -/
abbrev W : Nat := Config.reference.width

/-- A snapshot with the four operand values. -/
def snapOf (word : Word) (a b c d : Int) : Snapshot W := ⟨word, encW W a, encW W b, encW W c, encW W d⟩

/-- A reset CORE, then running a word: `ins` are the turns to come. -/
def running (word : Word) (a b c d : Int) (draws : List (BitVec W)) (ins : List (Event W)) : State :=
  { State.reset with cmd := word, phase := .busy (snapOf word a b c d) draws, inputs := ins }

/-- A reset CORE with these turns to come. -/
def idle (ins : List (Event W)) : State := { State.reset with inputs := ins }

/-- The next state, where there is one. -/
def after : Host.Outcome State Fault Refusal → Option State
  | .next t => some t
  | _ => none

/-- ERRCODE, RCOUNT and the four result registers of a next state. -/
def ending : Host.Outcome State Fault Refusal → Option (ErrCode × Nat × List Int)
  | .next t => some (t.errcode, t.rcount.toNat, [sval t.res0, sval t.res1, sval t.res2, sval t.res3])
  | _ => none

/-- A command's end when the engine has the turn. -/
def endOf (word : Word) (a b c d : Int) (draws : List (BitVec W)) : Option (ErrCode × Nat × List Int) :=
  ending (step (running word a b c d draws [.engine]))

/-- What a window read answers. -/
def readsAs (off : Offset) : Host.Outcome State Fault Refusal → Option Word
  | .next t => some (regRead off t)
  | _ => none

def writes (off : Offset) (v : Word) : Event W := .access (Access.regWrite Config.reference off v)

def reads (off : Offset) : Event W := .access (Access.regRead Config.reference off)

def maxS : Int := 9223372036854775807

def minS : Int := -9223372036854775808

/-- The smallest CORE, K = 1. -/
def smallest : Config where
  opwWords := 1
  base := 4096
  one_le_opwWords := by decide
  opwWords_le := by decide
  base_aligned := by decide

/-- A CORE of K = 1 that runs SMOOTH on `a`. -/
def runningSmall (a : Int) : State :=
  { State.resetOf smallest with
    cmd := 7
    phase := .busy ⟨7, encW smallest.width a, 0, 0, 0⟩ [] }

/-! ## Well formed and ill formed -/

theorem test_word_with_reserved_bit_is_ill_formed : validWord 0x00000101 = false := by decide
theorem test_word_with_opcode_zero_is_ill_formed : validWord 0x00000000 = false := by decide
theorem test_word_with_opcode_eight_is_ill_formed : validWord 0x00000008 = false := by decide
theorem test_word_of_smooth_is_well_formed : validWord 0x00000007 = true := by decide
theorem test_commands_are_well_formed : ∀ i : Instr, i.wellFormed = true := by intro i; cases i <;> decide
theorem test_misaligned_sw_is_ill_formed : (HostOp.sw 0x102 5).wellFormed Config.reference = false := by decide
theorem test_misaligned_lw_is_ill_formed : (HostOp.lw 0x801).wellFormed Config.reference = false := by decide
theorem test_operand_word_two_is_ill_formed : (HostOp.lwName (.operand .a 2)).wellFormed Config.reference = false := by
  decide
theorem test_result_word_two_is_ill_formed :
    (HostOp.swName (.result .r3 2) 0).wellFormed Config.reference = false := by decide
theorem test_wr_of_two_to_the_63_is_ill_formed :
    (HostOp.wr .a (maxS + 1)).wellFormed Config.reference = false := by decide +kernel
theorem test_wr_of_minus_two_to_the_63_is_well_formed : (HostOp.wr .a minS).wellFormed Config.reference = true := by
  decide +kernel

/-! ## Decoding: the words of R91, and R93's reserved words -/

theorem test_decode_modexp : decode 0b00000000000000000000000000000001 = .ok .modexp := by decide
theorem test_decode_egcd : decode 0b00000000000000000000000000000010 = .ok .egcd := by decide
theorem test_decode_crt : decode 0b00000000000000000000000000000011 = .ok .crt := by decide
theorem test_decode_fermat : decode 0b00000000000000000000000000000100 = .ok .fermat := by decide
theorem test_decode_msqrt : decode 0b00000000000000000000000000000101 = .ok .msqrt := by decide
theorem test_decode_rsqrt : decode 0b00000000000000000000000000000110 = .ok .rsqrt := by decide
theorem test_decode_smooth : decode 0b00000000000000000000000000000111 = .ok .smooth := by decide
theorem test_decode_zero : decode 0x00000000 = .error .opcodeZero := by decide
theorem test_decode_eight : decode 0x00000008 = .error .opcodeUndefined := by decide
theorem test_decode_ff : decode 0x000000FF = .error .opcodeUndefined := by decide
theorem test_decode_reserved_low : decode 0x00000101 = .error .reservedBits := by decide
theorem test_decode_reserved_high : decode 0x80000001 = .error .reservedBits := by decide
theorem test_decode_bytes_lane_zero_is_lowest : decodeBytes [0x03, 0, 0, 0, 0x07] = .ok (.crt, [0x07]) := by decide
theorem test_decode_bytes_truncated : decodeBytes [0x03, 0, 0] = .error .truncated := by decide
theorem test_decode_table_word : decodeTableWord 32 6 = some .rsqrt ∧ decodeTableWord 32 8 = none := by decide

/-! ## One step of each command: spec/95_test_vectors.md section 2 -/

theorem test_modexp_negative_base : endOf 1 (-3) 3 7 0 [] = some (.ok, 1, [1, 0, 0, 0]) := by decide +kernel
theorem test_modexp_exponent_checked_first : endOf 1 7 (-1) 0 0 [] = some (.negExponent, 0, [0, 0, 0, 0]) := by
  decide +kernel
theorem test_egcd_sign_moves : endOf 2 240 (-46) 0 0 [] = some (.ok, 3, [2, -9, -47, 0]) := by decide +kernel
theorem test_egcd_range : endOf 2 minS 0 0 0 [] = some (.range, 0, [0, 0, 0, 0]) := by decide +kernel
theorem test_crt_negative_residues : endOf 3 (-1) (-1) 3 5 [] = some (.ok, 1, [14, 0, 0, 0]) := by decide +kernel
theorem test_crt_modulus_before_coprime : endOf 3 1 1 0 4 [] = some (.badModulus, 0, [0, 0, 0, 0]) := by decide +kernel
theorem test_fermat_carmichael : endOf 4 561 20 0 0 [0, 1] = some (.ok, 3, [0, 2, 3, 0]) := by decide +kernel
theorem test_fermat_unsigned_draw : endOf 4 31 2 0 0 [0, 0xFFFFFFFFFFFFFFFF] = some (.ok, 3, [1, 2, 17, 0]) := by
  decide +kernel
theorem test_msqrt_negative : endOf 5 (-5) 7 0 0 [] = some (.ok, 2, [3, 4, 0, 0]) := by decide +kernel
theorem test_msqrt_below_three : endOf 5 4 (-1) 0 0 [] = some (.wrongClass, 0, [0, 0, 0, 0]) := by decide +kernel
theorem test_rsqrt_scenario : endOf 6 25 31 19 0 [] = some (.ok, 4, [5, 119, 470, 584]) := by decide +kernel
theorem test_rsqrt_equal_before_prime : endOf 6 25 15 15 0 [] = some (.equalPrimes, 0, [0, 0, 0, 0]) := by
  decide +kernel
theorem test_smooth_two_cubed : endOf 7 8 0 0 0 [] = some (.ok, 1, [840, 0, 0, 0]) := by decide +kernel
theorem test_smooth_range : endOf 7 43 0 0 0 [] = some (.range, 0, [0, 0, 0, 0]) := by decide +kernel

/-! ## Registers and the bus: spec/95_test_vectors.md section 3, by number -/

theorem test_v1_id : regRead 0x000 State.reset = 0x52070201 := by decide
theorem test_v2_id_is_read_only : readsAs 0x000 (step (idle [writes 0x000 0xFFFFFFFF])) = some 0x52070201 := by
  decide +kernel
theorem test_v5_ctrl_reserved_bits : readsAs 0x004 (step (idle [writes 0x004 0xFFFFFFFD])) = some 1 := by decide +kernel
theorem test_v6_soft_reset_wins : readsAs 0x004 (step (idle [writes 0x004 0x00000003])) = some 0 := by decide +kernel
theorem test_v7_operand_word_two_is_reserved : readsAs 0x108 (step (idle [writes 0x108 0x12345678])) = some 0 := by
  decide +kernel
theorem test_v9_byte_write_is_a_bus_error :
    after (step (idle [.access (.write 0x100 1 0b0001 0xFF)])) = some { idle [] with resp := .writeError } := by decide +kernel
theorem test_v9_misaligned_read_is_a_bus_error :
    after (step (idle [.access (.read 0x102 4)])) = some { idle [] with resp := .readError 0 } := by decide +kernel
theorem test_v13_illegal_word_is_badcmd :
    readsAs 0x00C (step (running 0x000001FF 5 5 5 5 [] [.engine])) = some 0x00000106 := by decide +kernel
theorem test_v16_accept_clears_status :
    readsAs 0x00C (step { idle [writes 0x008 7] with errcode := .badCmd, done := true, rcount := 2 }) = some 1 := by
  decide +kernel
theorem test_p4_write_while_busy_sets_overrun :
    readsAs 0x00C (step (running 4 7 1 0 0 [] [writes 0x008 7])) = some 0x00000009 := by decide +kernel
theorem test_v22_one_draw : witReady (running 4 7 1 0 0 [] []) = true ∧ witReady (running 4 7 1 0 0 [0] []) = false ∧
    endOf 4 7 1 0 0 [0] = some (.ok, 3, [1, 1, 2, 0]) := by decide +kernel

/-- R99, R60, R64: `WR OPA, -1` is two writes of all ones, word 0 first. -/
theorem test_wr_expands_word_zero_first : (HostOp.wr .a (-1)).expand Config.reference =
    [.w 0x100 0xFFFFFFFF, .w 0x104 0xFFFFFFFF] := by decide +kernel

/-- R99: the transactions of `CMD FERMAT`, `ACK`, `IEN`, `SRST` and a WAIT of two polls. -/
theorem test_host_operations_expand :
    (HostOp.cmd .fermat).expand Config.reference = [.w 0x008 4] ∧
    HostOp.ack.expand Config.reference = [.w 0x00C 0x0000000A] ∧
    HostOp.ien.expand Config.reference = [.w 0x004 1] ∧ HostOp.srst.expand Config.reference = [.w 0x004 2] ∧
    (HostOp.wait 1).expand Config.reference = [.r 0x00C, .r 0x00C] := by decide +kernel

/-! ## Witnesses: hypotheses that hold together -/

theorem running_phase (word : Word) (a b c d : Int) (draws : List (BitVec W)) (ins : List (Event W)) :
    (running word a b c d draws ins).phase = .busy (snapOf word a b c d) draws := rfl

/-- Every running state of these tests whose draws were taken while waited for meets the invariant. -/
theorem running_inv (word : Word) (a b c d : Int) (draws : List (BitVec W)) (ins : List (Event W))
    (h : ∀ k < draws.length, awaitsDraw (snapOf word a b c d) (draws.take k) = true) :
    Inv (running word a b c d draws ins) := by
  refine ⟨show (0 : Nat) ≤ 4 by decide, fun hp => ?_, fun snap ds hp => ?_⟩
  · rw [running_phase] at hp
    cases hp
  · obtain ⟨rfl, rfl⟩ := Phase.busy.inj ((running_phase word a b c d draws ins).symm.trans hp)
    exact ⟨⟨rfl, rfl, rfl, rfl⟩, h⟩

theorem reset_inv : Inv State.reset :=
  ⟨by decide, fun _ => ⟨by decide, by decide⟩, fun _ _ h => nomatch h⟩

/-- Valid words at both ends of the opcode range, and invalid ones beside them. -/
theorem witness_ValidWordsRunAndOthersAreBadCommands :
    (running 1 0 0 0 0 [] [.engine]).inputs = [.engine] ∧
    ((0x00000001 : Word).extractLsb' 8 24 = 0 ∧ ((0x00000001 : Word).extractLsb' 0 8).toNat = 1) ∧
    ((0x00000007 : Word).extractLsb' 8 24 = 0 ∧ ((0x00000007 : Word).extractLsb' 0 8).toNat = 7) ∧
    ((0x00000000 : Word).extractLsb' 0 8).toNat = 0 ∧ ((0x00000008 : Word).extractLsb' 0 8).toNat = 8 ∧
    (0x00000101 : Word).extractLsb' 8 24 ≠ 0 ∧ (0x80000007 : Word).extractLsb' 8 24 ≠ 0 := by decide

theorem witness_StepRunsTheDecodedCommand :
    decode (snapOf 7 3 0 0 0).word = .ok .smooth ∧ (running 7 3 0 0 0 [] []).inputs = [] ∧
    (running 7 3 0 0 0 [] [.engine, .rst]).inputs = [.engine, .rst] := by decide

theorem witness_FetchWordRunsNext : decodeTableWord 32 1 = some .modexp ∧ decodeTableWord 3 7 = some .smooth := by decide

/-- Both ends of the window at BASE = 4096, and the first addresses outside. -/
theorem witness_OnlyAccessesOutsideTheWindowStop :
    (∀ addr ∈ [4095, 8192], after (step { State.resetOf smallest with inputs := [.access (.read addr 4)] }) = none) ∧
    (∀ addr ∈ [4096, 8188], after (step { State.resetOf smallest with inputs := [.access (.read addr 4)] }) ≠ none) := by decide +kernel

theorem witness_ConfigurationNeverChanges : after (step State.reset) = some State.reset := by decide +kernel

theorem witness_IdleEngineDoesNothing :
    State.reset.phase = .idle ∧ State.reset.inputs = [] ∧ (idle [.engine]).inputs = [.engine] := by decide

theorem witness_CommandWriteWhileIdleIsAccepted :
    (idle [writes 0x008 7]).phase = .idle ∧
    (idle [writes 0x008 7]).inputs = [.access (Access.regWrite State.reset.cfg 0x008 7)] := by decide

theorem witness_CommandWriteWhileBusyOnlySetsOverrun :
    (running 4 7 1 0 0 [] [writes 0x008 7]).inputs = [.access (Access.regWrite State.reset.cfg 0x008 7)] := by decide

/-- No result, four results at the ends of the range of W = 64, and one beyond each end. -/
theorem witness_CompletionStepWritesTheOutcome :
    ([] : List Int).length ≤ 4 ∧ [maxS, minS, 0, 1].length ≤ 4 ∧
    (∀ v ∈ [maxS, minS, 0, 1],
      -(2 ^ (State.reset.cfg.width - 1) : Int) ≤ v ∧ v ≤ 2 ^ (State.reset.cfg.width - 1) - 1) ∧
    (∀ v ∈ [maxS + 1, minS - 1],
      ¬ (-(2 ^ (State.reset.cfg.width - 1) : Int) ≤ v ∧ v ≤ 2 ^ (State.reset.cfg.width - 1) - 1)) := by decide +kernel

/-- A command that runs, and offsets at the ends of the ranges that read as before. -/
theorem witness_CommandsChangeOnlyResultsAndStatus :
    ending (exec .smooth (running 7 3 0 0 0 [] [])) = some (.ok, 1, [6, 0, 0, 0]) ∧
    (0x000 : Offset).toNat % 4 = 0 ∧ (0x7FC : Offset).toNat = 0x7FC ∧ (0xC00 : Offset).toNat = 0xC00 ∧
    (0xFFC : Offset).toNat % 4 = 0 ∧ (0x000 : Offset) ≠ 0x00C := by decide +kernel

theorem witness_ErrorCompletionKeepsResults :
    (running 1 7 (-1) 5 0 [] []).errcode = .ok ∧
    ending (exec .modexp (running 1 7 (-1) 5 0 [] [])) = some (.negExponent, 0, [0, 0, 0, 0]) := by decide +kernel

/-- The three ways it can end: a result, an error, a wait. -/
theorem witness_OutcomeDependsOnSnapshotAndDrawsOnly :
    ending (exec .egcd (running 2 240 46 0 0 [] [])) = some (.ok, 3, [2, -9, 47, 0]) ∧
    ending (exec .egcd (running 2 minS minS 0 0 [] [])) = some (.range, 0, [0, 0, 0, 0]) ∧
    after (exec .fermat (running 4 7 1 0 0 [] [])) = some (running 4 7 1 0 0 [] []) := by decide +kernel

theorem witness_OperandWriteWhileBusyCommutesWithEngine :
    (0 < State.reset.cfg.opwWords ∧ 1 < State.reset.cfg.opwWords) ∧
    (RegName.operand .d 1).offset = 0x404 := by decide

theorem witness_ModexpFunctionIsPowerModulo : (1 : Int) ≤ 1 ∧ modexpFn 5 0 1 = 0 := by decide

/-- The three clauses at exponent −1, modulus 0 and exponent 0 with modulus 1. -/
theorem witness_ModexpCompletes :
    sval (snapOf 1 7 (-1) 5 0).opb < 0 ∧
    (0 ≤ sval (snapOf 1 7 0 0 0).opb ∧ sval (snapOf 1 7 0 0 0).opc < 1) ∧
    (0 ≤ sval (snapOf 1 7 0 1 0).opb ∧ 1 ≤ sval (snapOf 1 7 0 1 0).opc) ∧
    endOf 1 7 0 1 0 [] = some (.ok, 1, [0, 0, 0, 0]) := by decide +kernel

theorem witness_EgcdNatObeysItsRecursion : egcdNat 1 (5 % 1) = (1, 1, 0) ∧ egcdNat 5 1 = (1, 0, 1) := by decide

/-- R142's own cases: both 0, b = 0 with a ≥ 0 and a < 0. -/
theorem witness_EgcdFunctionGivesGcdAndBezout :
    egcdNat (0 : Int).natAbs (0 : Int).natAbs = (0, 1, 0) ∧ egcdFn 0 0 = (0, 1, 0) ∧ egcdFn 5 0 = (5, 1, 0) ∧
    egcdFn (-4) 0 = (4, -1, 0) := by decide

theorem witness_EgcdCompletes :
    (egcdFn (sval (snapOf 2 minS 1 0 0).opa) (sval (snapOf 2 minS 1 0 0).opb) = (1, 0, 1) ∧
      fitsW W 1 = true ∧ fitsW W 0 = true) ∧
    (egcdFn (sval (snapOf 2 minS 0 0 0).opa) (sval (snapOf 2 minS 0 0 0).opb) = (maxS + 1, -1, 0) ∧
      fitsW W (maxS + 1) = false) := by decide +kernel

theorem witness_CrtFunctionIsTheUniqueResidue : Int.gcd 1 1 = 1 ∧ crtFn 1 1 1 1 = 0 ∧ Int.gcd 3 5 = 1 ∧
    crtFn 1 2 3 5 = 7 := by decide

/-- Each clause, at moduli 0, 1, equal to one another, and with a result on either side of 2^63 − 1. -/
theorem witness_CrtCompletes :
    sval (snapOf 3 1 1 0 4).opc < 1 ∧ sval (snapOf 3 1 1 5 0).opd < 1 ∧
    Int.gcd (sval (snapOf 3 2 3 7 7).opc) (sval (snapOf 3 2 3 7 7).opd) ≠ 1 ∧
    (Int.gcd (sval (snapOf 3 1 1 1 1).opc) (sval (snapOf 3 1 1 1 1).opd) = 1 ∧
      endOf 3 1 1 1 1 [] = some (.ok, 1, [0, 0, 0, 0])) ∧
    (crtFn 0 1 4611686018427387905 3 = maxS + 3 ∧
      endOf 3 0 1 4611686018427387905 3 [] = some (.range, 0, [0, 0, 0, 0])) := by decide +kernel

theorem witness_WitnessesReachExactlyTheRange :
    5 ≤ sval (encW W 5) ∧ sval (encW W 5) % 2 = 1 ∧ witnessOf (w := W) 5 0 = 2 ∧ witnessOf (w := W) 5 1 = 3 := by
  decide +kernel

/-- n and rounds at the ends of every clause. -/
theorem witness_FermatCompletes :
    sval (snapOf 4 561 0 0 0).opb < 1 ∧
    (1 ≤ sval (snapOf 4 1 1 0 0).opb ∧ sval (snapOf 4 1 1 0 0).opa < 2) ∧
    (sval (snapOf 4 2 1 0 0).opa = 2 ∧ sval (snapOf 4 3 1 0 0).opa = 3) ∧
    (4 ≤ sval (snapOf 4 4 1 0 0).opa ∧ sval (snapOf 4 4 1 0 0).opa % 2 = 0) ∧
    (5 ≤ sval (snapOf 4 5 1 0 0).opa ∧ sval (snapOf 4 5 1 0 0).opa % 2 = 1) := by decide +kernel

/-- A failing first trial, a passing last one, and a wait. -/
theorem witness_FermatCompletes_trials :
    (¬ trialPasses (w := W) 9 5 ∧ endOf 4 9 2 0 0 [5] = some (.ok, 3, [0, 1, 7, 0])) ∧
    (trialPasses (w := W) 5 0 ∧ endOf 4 5 1 0 0 [0] = some (.ok, 3, [1, 1, 2, 0])) ∧
    (([] : List (BitVec W)).length : Int) < sval (snapOf 4 5 1 0 0).opb := by
  unfold trialPasses
  decide +kernel

theorem witness_DrawsAreTakenExactlyWhenNeeded :
    (running 4 7 1 0 0 [] [.witness 0]).inputs = [.witness 0] ∧
    witReady (running 4 7 1 0 0 [] [.witness 0]) = true ∧ witReady (idle [.witness 0]) = false ∧
    witReady (running 4 7 1 0 0 [0] [.witness 0]) = false := by decide +kernel

/-- A wait, with a turn of each of the three kinds. -/
theorem witness_OnlyDrawOrResetEndsTheWait :
    ∀ ev ∈ [(.witness 0 : Event W), .rst, writes 0x008 7], witReady (running 4 7 1 0 0 [] [ev]) = true ∧
      ending (step (running 4 7 1 0 0 [] [ev])) = some (.ok, 0, [0, 0, 0, 0]) := by decide +kernel

theorem witness_FermatConsumesExactlyRes1Draws : Inv (running 4 561 20 0 0 [0, 1] []) ∧
    decode (snapOf 4 561 20 0 0).word = .ok .fermat ∧
    ending (exec .fermat (running 4 561 20 0 0 [0, 1] [])) = some (.ok, 3, [0, 2, 3, 0]) :=
  ⟨running_inv _ _ _ _ _ _ _ (by decide +kernel), by decide, by decide +kernel⟩

theorem witness_DrawsAreAtMostRounds : Inv (running 4 7 1 0 0 [0] []) :=
  running_inv _ _ _ _ _ _ _ (by decide +kernel)

theorem witness_FermatNeverRejectsAPrime :
    (sval (snapOf 4 7 1 0 0).opa).toNat.Prime ∧ 1 ≤ sval (snapOf 4 7 1 0 0).opb ∧
    2 ≤ sval (snapOf 4 7 1 0 0).opa ∧
    ending (exec .fermat (running 4 7 1 0 0 [0] [])) = some (.ok, 3, [1, 1, 2, 0]) :=
  ⟨(isPrime_iff_prime _).mp (by decide +kernel), by decide +kernel⟩

theorem witness_SortAscIsTheAscendingListOfTheSet :
    [(3 : Int), 4].Pairwise (· < ·) ∧ sortAsc [4, 3, 4] = [3, 4] := by decide

/-- a ≡ 0, a non-residue and a residue modulo 7. -/
theorem witness_SquareRootFunctionFollowsEuler :
    classOK 7 = true ∧ isPrime 7 = true ∧ (14 : Int) % 7 = 0 ∧ ((3 : Int) % 7) ^ 3 % 7 ≠ 1 ∧ ((2 : Int) % 7) ^ 3 % 7 = 1 ∧
    msqrtFn 2 7 = [3, 4] := by decide +kernel

/-- The class check at 2 and 5, a composite of the class, and the least prime of it. -/
theorem witness_MsqrtCompletes :
    ¬ (3 ≤ sval (snapOf 5 4 2 0 0).opb) ∧ sval (snapOf 5 4 5 0 0).opb % 4 ≠ 3 ∧
    ((sval (snapOf 5 4 15 0 0).opb % 4 = 3) ∧ isPrime (sval (snapOf 5 4 15 0 0).opb) = false) ∧
    (3 ≤ sval (snapOf 5 1 3 0 0).opb ∧ sval (snapOf 5 1 3 0 0).opb % 4 = 3 ∧
      isPrime (sval (snapOf 5 1 3 0 0).opb) = true) ∧
    endOf 5 1 3 0 0 [] = some (.ok, 2, [1, 2, 0, 0]) := by decide +kernel

/-- One state for each clause, in the order of the checks. -/
theorem witness_RsqrtCompletes :
    endOf 6 25 31 5 0 [] = some (.wrongClass, 0, [0, 0, 0, 0]) ∧
    endOf 6 25 31 31 0 [] = some (.equalPrimes, 0, [0, 0, 0, 0]) ∧
    endOf 6 25 31 15 0 [] = some (.notPrime, 0, [0, 0, 0, 0]) ∧
    endOf 6 1 3 7 0 [] = some (.ok, 4, [1, 8, 13, 20]) ∧
    endOf 6 0 31 19 0 [] = some (.ok, 1, [0, 0, 0, 0]) := by decide +kernel

/-- At K = 1 a product beyond 2^31 − 1: c = 0 has the root 0, c = 1 has p·q − 1, which does not fit. -/
theorem witness_RsqrtCompletes_range :
    65543 * 65539 - 1 > (2 : Int) ^ (smallest.width - 1) - 1 ∧ (65543 : Int) % 4 = 3 ∧ (65539 : Int) % 4 = 3 ∧
    isPrime 65543 = true ∧ isPrime 65539 = true := by decide +kernel

/-- The scenario of R211 with the largest plaintext, m = n − 1. -/
theorem witness_RabinRoundTripRecoversPlaintext :
    sval (snapOf 6 1 31 19 0).opa = 588 * 588 % (31 * 19) ∧ sval (snapOf 6 1 31 19 0).opb = 31 ∧
    sval (snapOf 6 1 31 19 0).opc = 19 ∧ isPrime 31 = true ∧ isPrime 19 = true ∧ (31 : Int) % 4 = 3 ∧
    (19 : Int) % 4 = 3 ∧ (31 * 19 : Int) ≤ 2 ^ (W - 1) := by decide +kernel

/-- The bounds −1, 0, 42 and 43 at W = 64. -/
theorem witness_SmoothCompletes :
    endOf 7 (-1) 0 0 0 [] = some (.badBound, 0, [0, 0, 0, 0]) ∧ endOf 7 0 0 0 0 [] = some (.ok, 1, [1, 0, 0, 0]) ∧
    endOf 7 42 0 0 0 [] = some (.ok, 1, [219060189739591200, 0, 0, 0]) ∧
    endOf 7 43 0 0 0 [] = some (.range, 0, [0, 0, 0, 0]) := by decide +kernel

/-- The bounds 0, 22 and 23 at W = 32. -/
theorem witness_SmoothThresholdsAtTheSpecWidths :
    (runningSmall 22).cfg.opwWords = 1 ∧ State.reset.cfg.opwWords = 2 ∧
    ending (exec .smooth (runningSmall 0)) = some (.ok, 1, [1, 0, 0, 0]) ∧
    ending (exec .smooth (runningSmall 22)) = some (.ok, 1, [232792560, 0, 0, 0]) ∧
    ending (exec .smooth (runningSmall 23)) = some (.range, 0, [0, 0, 0, 0]) := by decide +kernel

/-- First and last word of a register at K = 2, and the reserved offsets at the ends of their ranges. -/
theorem witness_ReadsAnswerTheMappedRegister :
    (idle [reads 0x404]).inputs = [.access (Access.regRead State.reset.cfg 0x404)] ∧
    (0x404 : Offset).toNat = operandBase .d + 4 * 1 ∧ (0xB04 : Offset).toNat = resultBase .r3 + 4 * 1 ∧
    (1 < State.reset.cfg.opwWords) := by decide

theorem witness_ReservedOffsetsReadZeroAndIgnoreWrites :
    reservedOffset 2 0x010 ∧ reservedOffset 2 0x0FC ∧ reservedOffset 2 0x108 ∧ reservedOffset 2 0x4FC ∧
    reservedOffset 2 0x500 ∧ reservedOffset 2 0x7FC ∧ reservedOffset 2 0x808 ∧ reservedOffset 2 0xBFC ∧
    reservedOffset 2 0xC00 ∧ reservedOffset 2 0xFFC := by simp [reservedOffset]

/-- The first and the last word that are not reserved at K = 2. -/
theorem witness_no_register_is_reserved :
    ¬ reservedOffset 2 0x00C ∧ ¬ reservedOffset 2 0x100 ∧ ¬ reservedOffset 2 0x104 ∧ ¬ reservedOffset 2 0x404 ∧
    ¬ reservedOffset 2 0x800 ∧ ¬ reservedOffset 2 0xB04 := by simp [reservedOffset]

/-- Misaligned, short, and without all byte enables, at both ends of the window. -/
theorem witness_IllegalAccessesGetABusErrorOnly :
    after (step (idle [.access (.read 0xFFF 4)])) = some { idle [] with resp := .readError 0 } ∧
    after (step (idle [.access (.read 0 2)])) = some { idle [] with resp := .readError 0 } ∧
    after (step (idle [.access (.write 0x100 4 0x7 5)])) = some { idle [] with resp := .writeError } := by decide +kernel

theorem witness_OperandWriteSetsOneWord :
    (idle [writes (RegName.operand .b 1).offset 9]).inputs =
      [.access (Access.regWrite State.reset.cfg (RegName.operand .b 1).offset 9)] ∧ 1 < State.reset.cfg.opwWords := by
  decide

theorem witness_HostWrPutsTheInteger :
    (HostOp.wr .c maxS).wellFormed State.reset.cfg = true ∧
    (idle (hostTurns Config.reference [.wr .c maxS])).inputs = hostTurns State.reset.cfg [.wr .c maxS] ++ [] := by
  decide +kernel

theorem witness_CtrlWriteSetsInterruptEnable :
    (0xFFFFFFFD : Word).getLsbD 1 = false ∧ (0x00000000 : Word).getLsbD 1 = false ∧
    (idle [writes 0x004 1]).inputs = [.access (Access.regWrite State.reset.cfg 0x004 1)] := by decide

theorem witness_StatusWriteClearsDoneAndOverrunOnly :
    (idle [writes 0x00C 0xA]).inputs = [.access (Access.regWrite State.reset.cfg 0x00C 0xA)] ∧
    (0xA : Word).getLsbD 1 = true ∧ (0xA : Word).getLsbD 3 = true := by decide

/-- DONE = 1 before each of the three turns that clear it, and one that does not. -/
theorem witness_DoneIsClearedExactlyByAckAcceptOrReset :
    (∀ ev ∈ [writes 0x00C 2, writes 0x008 7, writes 0x004 2, .rst],
      readsAs 0x00C (step { idle [ev] with done := true }) ≠ some 2) ∧
    readsAs 0x00C (step { idle [writes 0x00C 8] with done := true }) = some 2 := by decide +kernel

theorem witness_ResultsChangeOnlyAtCompletionOrReset :
    endOf 7 3 0 0 0 [] = some (.ok, 1, [6, 0, 0, 0]) ∧
    ending (step { idle [.rst] with res0 := 5 }) = some (.ok, 0, [0, 0, 0, 0]) ∧
    ending (step { idle [writes 0x008 7] with res0 := 5 }) = some (.ok, 0, [5, 0, 0, 0]) := by decide +kernel

theorem witness_CompletionRaisesInterruptWhenEnabled :
    busyBit (running 7 3 0 0 0 [] []) = true ∧
    after (exec .smooth { running 7 3 0 0 0 [] [] with ie := true }) =
      some ({ running 7 3 0 0 0 [] [] with ie := true }.withResults 1 6 0 0 0) ∧
    busyBit ({ running 7 3 0 0 0 [] [] with ie := true }.withResults 1 6 0 0 0) = false := by decide +kernel

theorem witness_StatusReadsBusyOnlyWhileRunning :
    Inv (running 4 7 1 0 0 [] []) ∧ busyBit (running 4 7 1 0 0 [] []) = true :=
  ⟨running_inv _ _ _ _ _ _ _ (by decide), by decide⟩

theorem witness_TornReadSeesOldAndNewWord :
    decode (snapOf 1 5 2 589 0).word = .ok .modexp ∧ 2 ≤ State.reset.cfg.opwWords ∧
    0 ≤ sval (snapOf 1 5 2 589 0).opb ∧ 1 ≤ sval (snapOf 1 5 2 589 0).opc ∧
    (running 1 5 2 589 0 [] [reads 0x800, .engine, reads 0x804]).inputs =
      [.access (Access.regRead State.reset.cfg 0x800), .engine, .access (Access.regRead State.reset.cfg 0x804)] := by
  decide +kernel

theorem witness_ResetFromEitherSourceClearsEverything :
    (running 4 7 1 0 0 [0] [.rst]).inputs = [.rst] ∧ (0x00000003 : Word).getLsbD 1 = true ∧
    (running 4 7 1 0 0 [0] [writes 0x004 3]).inputs = [.access (Access.regWrite State.reset.cfg 0x004 3)] := by decide

theorem witness_ResetStateReadsZero :
    regRead 0x004 State.reset = 0 ∧ regRead 0xB04 State.reset = 0 ∧ regRead 0xFFC (State.resetOf smallest) = 0 := by
  decide

theorem witness_EveryStepKeepsTheInvariant : Inv State.reset ∧ after (step State.reset) = some State.reset :=
  ⟨reset_inv, by decide +kernel⟩

/-- A FERMAT with two rounds, no draw so far, and two offered. -/
theorem witness_RunningCommandsTerminate :
    (running 4 7 2 0 0 [] [.witness 0, .witness 1]).inputs = [(0 : BitVec W), 1].map Event.witness ∧
    sval (snapOf 4 7 2 0 0).opb = 2 :=
  ⟨rfl, by decide +kernel⟩

/-- An illegal word, a legal one and an IDLE CORE, with no turns to come. -/
theorem witness_EmptyInputsAreTheEnginesTurn :
    (running 0x100 0 0 0 0 [] []).inputs = [] ∧ (0x00000100 : Word).extractLsb' 8 24 ≠ 0 ∧
    ending (step (running 0x100 0 0 0 0 [] [])) = some (.badCmd, 0, [0, 0, 0, 0]) ∧
    ending (step (running 7 3 0 0 0 [] [])) = some (.ok, 1, [6, 0, 0, 0]) ∧ State.reset.inputs = [] := by decide +kernel

end Sys2Proof.Tests
end

section
/-! The statements of spec/10_state.md on reads (R24), operand writes (R23), ID (R27), CTRL (R28) and STATUS (R32 to
R38), with the lemmas they need. -/

namespace Sys2Proof.Machine

/-! ## What reads do not see, and what no step changes -/

theorem statusWord_inputs (s : State) (ins : List (Event s.cfg.width)) :
    statusWord { s with inputs := ins } = statusWord s := by
  simp only [statusWord, errBit, busyBit_inputs]

theorem regRead_inputs (off : Offset) (s : State) (ins : List (Event s.cfg.width)) :
    regRead off { s with inputs := ins } = regRead off s := by
  unfold regRead
  dsimp only
  cases target s.cfg.opwWords off with
  | id | ctrl | cmd | reserved => rfl
  | status => exact statusWord_inputs s ins
  | operand x i => cases x <;> rfl
  | result j i => cases j <;> rfl

theorem regWrite_cfg (off : Offset) (v : Word) (s : State) (h4 : off.toNat % 4 = 0) :
    (regWrite off v s).cfg = s.cfg := by
  rcases regWrite_cases off v s h4 with ⟨h, -⟩ | ⟨-, -, h⟩ | ⟨-, -, h⟩ | ⟨-, h⟩ | ⟨-, -, h⟩ | ⟨-, -, h⟩ |
    ⟨a, b, c, d, h, -⟩ <;> rw [h] <;> rfl

/-- The engine's turn waits, completes with results, or completes with an error. -/
theorem engineTurn_next_cases (s t : State) (h : engineTurn s = .next t) :
    t = s ∨ (∃ vs, t = s.withRoots vs) ∨ ∃ c, t = s.withError c := by
  obtain ⟨t', ht, hcases⟩ := engineTurn_cases s
  obtain rfl := Host.Outcome.next.inj (h.symm.trans ht)
  rcases hcases with h' | ⟨-, ⟨vs, -, -, h'⟩ | ⟨c, -, h'⟩⟩
  · exact .inl h'
  · exact .inr (.inl ⟨vs, h'⟩)
  · exact .inr (.inr ⟨c, h'⟩)

theorem engineTurn_cfg (s t : State) (h : engineTurn s = .next t) : t.cfg = s.cfg := by
  rcases engineTurn_next_cases s t h with rfl | ⟨vs, rfl⟩ | ⟨c, rfl⟩ <;> rfl

theorem offerWitness_cfg (s : State) (r : BitVec s.cfg.width) : (offerWitness s r).cfg = s.cfg := by
  rcases offerWitness_cases s r with ⟨-, h⟩ | ⟨snap, draws, -, -, -, h⟩ <;> rw [h]

/-- No step changes the configuration (R5, R60). -/
theorem step_cfg (s t : State) (h : step s = .next t) : t.cfg = s.cfg := by
  rcases step_cases s t h with ⟨-, he⟩ | ⟨ev, rest, -, ⟨-, he⟩ | ⟨r, -, rfl⟩ | ⟨-, rfl⟩ | ⟨a, r, -, rfl, -⟩ |
    ⟨off, v, h4, -, rfl⟩⟩
  · exact engineTurn_cfg s t he
  · exact engineTurn_cfg { s with inputs := rest } t he
  · exact offerWitness_cfg { s with inputs := rest } r
  · rfl
  · rfl
  · exact regWrite_cfg off v { s with inputs := rest } h4

/-! ## DONE and the end of a running command (R34) -/

theorem busyBit_eq_true_iff (s : State) : busyBit s = true ↔ s.phase ≠ .idle := by
  rw [← Bool.not_eq_false, ne_eq, busyBit_eq_false_iff]

theorem Access.regWrite_inj {c : Config} {off off' : Offset} {v v' : Word} :
    Access.regWrite c off v = Access.regWrite c off' v' ↔ off = off' ∧ v = v' := by
  simp [Access.regWrite, BitVec.toNat_inj]

/-- The turns that clear DONE (R34): the acknowledge, an accepted CMD write, a reset. -/
def clearsDone (s : State) (ev : Event s.cfg.width) : Prop :=
  (∃ v : Word, v.getLsbD 1 = true ∧ ev = .access (Access.regWrite s.cfg 0x00C v)) ∨
    (s.phase = .idle ∧ ∃ v, ev = .access (Access.regWrite s.cfg 0x008 v)) ∨ isReset s.cfg ev

theorem clearsDone_rst (s : State) : clearsDone s .rst := .inr (.inr (.inl rfl))

theorem not_clearsDone_engine (s : State) : ¬ clearsDone s .engine := by
  simp [clearsDone, isReset]

theorem not_clearsDone_witness (s : State) (r : BitVec s.cfg.width) : ¬ clearsDone s (.witness r) := by
  simp [clearsDone, isReset]

/-- An access that is no legal write, a read among them, does not clear DONE. -/
theorem not_clearsDone_access (s : State) (a : Access)
    (h : ∀ off v, off.toNat % 4 = 0 → a ≠ Access.regWrite s.cfg off v) : ¬ clearsDone s (.access a) := by
  rintro (⟨v, -, he⟩ | ⟨-, v, he⟩ | hr)
  · exact h 0x00C v (by decide) (Event.access.inj he)
  · exact h 0x008 v (by decide) (Event.access.inj he)
  · obtain ⟨v, -, he⟩ := (isReset_access_iff _ _).mp hr
    exact h 0x004 v (by decide) he

theorem clearsDone_regWrite_iff (s : State) (off : Offset) (v : Word) :
    clearsDone s (.access (Access.regWrite s.cfg off v)) ↔
      (off = 0x00C ∧ v.getLsbD 1 = true) ∨ (off = 0x008 ∧ s.phase = .idle) ∨ (off = 0x004 ∧ v.getLsbD 1 = true) := by
  simp [clearsDone, isReset_access_iff, Access.regWrite_inj, and_comm]

/-- A legal write leaves DONE = 0 exactly where DONE was 0 or the write clears it (R34). -/
theorem regWrite_done_eq_false_iff (off : Offset) (v : Word) (s : State) (h4 : off.toNat % 4 = 0) :
    (regWrite off v s).done = false ↔
      s.done = false ∨ clearsDone s (.access (Access.regWrite s.cfg off v)) := by
  rw [clearsDone_regWrite_iff]
  rcases regWrite_cases off v s h4 with ⟨h, h1, h2, h3⟩ | ⟨hp, rfl, h⟩ | ⟨hb, rfl, h⟩ | ⟨rfl, h⟩ | ⟨rfl, hv, h⟩ |
    ⟨rfl, hv, h⟩ | ⟨a, b, c, d, h, h1, h2, h3⟩ <;> rw [h]
  · simp only [h1, h2, h3, false_and, or_false]
  · simp [hp]
  · have hp : s.phase ≠ .idle := (busyBit_eq_true_iff s).mp hb
    simp [hp]
  · cases hd : s.done <;> simp [hd]
  · simp [show v[1] = true from hv]
  · simp [show v[1] = false from hv]
  · simp only [h1, h2, h3, false_and, or_false]

/-- A legal write ends a running command only as a reset (R29, R292). -/
theorem regWrite_ends_only_by_reset (off : Offset) (v : Word) (s : State) (h4 : off.toNat % 4 = 0)
    (hs : s.phase ≠ .idle) (ht : (regWrite off v s).phase = .idle) : off = 0x004 ∧ v.getLsbD 1 = true := by
  rcases regWrite_cases off v s h4 with ⟨h, -⟩ | ⟨hp, -, -⟩ | ⟨-, -, h⟩ | ⟨-, h⟩ | ⟨hoff, hv, -⟩ | ⟨-, -, h⟩ |
    ⟨a, b, c, d, h, -⟩
  case inr.inl => exact absurd hp hs
  case inr.inr.inr.inr.inl => exact ⟨hoff, hv⟩
  all_goals
    rw [h] at ht
    exact absurd ht hs

/-- The engine's turn never clears DONE (R34). -/
theorem engineTurn_keeps_done (s t : State) (h : engineTurn s = .next t) (hd : s.done = true) : t.done = true := by
  rcases engineTurn_next_cases s t h with rfl | ⟨vs, rfl⟩ | ⟨c, rfl⟩
  · exact hd
  · rfl
  · rfl

/-- The engine's turn that ends a command sets DONE (R34). -/
theorem engineTurn_completion_done (s t : State) (h : engineTurn s = .next t) (hs : s.phase ≠ .idle)
    (ht : t.phase = .idle) : t.done = true := by
  rcases engineTurn_next_cases s t h with rfl | ⟨vs, rfl⟩ | ⟨c, rfl⟩
  · exact absurd ht hs
  · rfl
  · rfl

theorem offerWitness_done (s : State) (r : BitVec s.cfg.width) : (offerWitness s r).done = s.done := by
  rcases offerWitness_cases s r with ⟨-, h⟩ | ⟨snap, draws, -, -, -, h⟩ <;> rw [h]

/-- A witness offer ends no command (R181). -/
theorem offerWitness_keeps_busy (s : State) (r : BitVec s.cfg.width) (hs : s.phase ≠ .idle) :
    (offerWitness s r).phase ≠ .idle := by
  rcases offerWitness_cases s r with ⟨-, h⟩ | ⟨snap, draws, -, -, -, h⟩ <;> rw [h]
  · exact hs
  · simp

/-- A step that ends a running command is a completion, which sets DONE, or a reset. -/
theorem step_end_sets_done_or_resets (s t : State) (hb : busyBit s = true) (h : step s = .next t)
    (hb' : busyBit t = false) : t.done = true ∨ ∃ ev rest, s.inputs = ev :: rest ∧ isReset s.cfg ev := by
  have hs := (busyBit_eq_true_iff s).mp hb
  have ht := (busyBit_eq_false_iff t).mp hb'
  rcases step_cases s t h with ⟨-, he⟩ | ⟨ev, rest, hi, ⟨-, he⟩ | ⟨r, -, rfl⟩ | ⟨rfl, -⟩ | ⟨a, r, -, rfl, -⟩ |
    ⟨off, v, h4, rfl, rfl⟩⟩
  · exact .inl (engineTurn_completion_done s t he hs ht)
  · exact .inl (engineTurn_completion_done { s with inputs := rest } t he hs ht)
  · exact absurd ht (offerWitness_keeps_busy { s with inputs := rest } r hs)
  · exact .inr ⟨_, rest, hi, .inl rfl⟩
  · exact absurd ht hs
  · obtain ⟨rfl, hv⟩ := regWrite_ends_only_by_reset off v { s with inputs := rest } h4 hs ht
    exact .inr ⟨_, rest, hi, .inr ⟨v, hv, rfl⟩⟩

/-- From DONE = 1, a step leaves DONE = 0 exactly where it takes a turn that clears it. -/
theorem step_done_eq_false_iff (s t : State) (hd : s.done = true) (h : step s = .next t) :
    t.done = false ↔ ∃ ev rest, s.inputs = ev :: rest ∧ clearsDone s ev := by
  rcases step_cases s t h with ⟨hi, he⟩ | ⟨ev, rest, hi, hturn⟩
  · simp [hi, engineTurn_keeps_done s t he hd]
  have htaken : (∃ ev' rest', s.inputs = ev' :: rest' ∧ clearsDone s ev') ↔ clearsDone s ev := by
    simp [hi]
  rw [htaken]
  rcases hturn with ⟨rfl, he⟩ | ⟨r, rfl, rfl⟩ | ⟨rfl, rfl⟩ | ⟨a, r, rfl, rfl, hn⟩ | ⟨off, v, h4, rfl, rfl⟩
  · simp [engineTurn_keeps_done _ t he hd, not_clearsDone_engine]
  · have := offerWitness_done { s with inputs := rest } r
    simp [this, hd, not_clearsDone_witness]
  · simp [clearsDone_rst]
  · simp [hd, not_clearsDone_access s a hn]
  · exact (regWrite_done_eq_false_iff off v { s with inputs := rest } h4).trans
      (or_iff_right (show ¬ s.done = false by simp [hd]))

/-! ## ID and STATUS, field by field (R27, R32) -/

theorem idWord_version (c : Config) : (idWord c).extractLsb' 0 8 = 0x01 := by
  simp only [idWord, BitVec.extractLsb'_append_eq_ite]
  simp

theorem idWord_opwWords (c : Config) : ((idWord c).extractLsb' 8 8).toNat = c.opwWords := by
  have hK : c.opwWords < 256 := lt_of_le_of_lt c.opwWords_le (by decide)
  simp only [idWord, BitVec.extractLsb'_append_eq_ite]
  simp [Nat.mod_eq_of_lt hK]

theorem idWord_ncmd (c : Config) : (idWord c).extractLsb' 16 8 = 0x07 := by
  simp only [idWord, BitVec.extractLsb'_append_eq_ite]
  simp

theorem idWord_magic (c : Config) : (idWord c).extractLsb' 24 8 = 0x52 := by
  simp only [idWord, BitVec.extractLsb'_append_eq_ite]
  simp

theorem idWord_of_two_words (c : Config) (h : c.opwWords = 2) : idWord c = 0x52070201 := by
  rw [idWord, h]
  rfl

theorem statusWord_busy (s : State) : (statusWord s).getLsbD 0 = busyBit s := by
  simp only [statusWord, BitVec.getLsbD_append]
  simp

theorem statusWord_done (s : State) : (statusWord s).getLsbD 1 = s.done := by
  simp only [statusWord, BitVec.getLsbD_append]
  simp

theorem statusWord_err (s : State) : (statusWord s).getLsbD 2 = errBit s := by
  simp only [statusWord, BitVec.getLsbD_append]
  simp

theorem statusWord_ovr (s : State) : (statusWord s).getLsbD 3 = s.ovr := by
  simp only [statusWord, BitVec.getLsbD_append]
  simp

theorem statusWord_errcode (s : State) : (statusWord s).extractLsb' 8 4 = s.errcode.code := by
  simp only [statusWord, BitVec.extractLsb'_append_eq_ite]
  simp

theorem statusWord_rcount (s : State) : (statusWord s).extractLsb' 16 3 = s.rcount := by
  simp only [statusWord, BitVec.extractLsb'_append_eq_ite]
  simp

/-- The reserved bits of STATUS read 0 (R32). -/
theorem statusWord_reserved (s : State) :
    (statusWord s).extractLsb' 4 4 = 0 ∧ (statusWord s).extractLsb' 12 4 = 0 ∧
      (statusWord s).extractLsb' 19 13 = 0 := by
  simp only [statusWord, BitVec.extractLsb'_append_eq_ite]
  simp

/-- STATUS is 0 after a reset (R291). -/
theorem statusWord_resetOf (c : Config) : statusWord (State.resetOf c) = 0 := by
  have hbusy : busyBit (State.resetOf c) = false := rfl
  have herr : errBit (State.resetOf c) = false := rfl
  rw [statusWord, hbusy, herr]
  simp [State.resetOf, ErrCode.code]

/-- ERR is 1 exactly where ERRCODE is not OK (R35). -/
theorem errBit_eq (s : State) : errBit s = decide (s.errcode ≠ .ok) := by
  rw [errBit]
  cases s.errcode <;> rfl

theorem writeStatus_eq (v : Word) (s : State) :
    writeStatus v s = { s with
      done := if v.getLsbD 1 then false else s.done
      ovr := if v.getLsbD 3 then false else s.ovr } := by
  rw [writeStatus]
  cases v.getLsbD 1 <;> cases v.getLsbD 3 <;> simp

/-! ## The statements -/

/-- Settles O40, from the model's `step_regRead` and the register map by offset. -/
theorem readsAnswerTheMappedRegister : Obligations.ReadsAnswerTheMappedRegister := by
  unfold Obligations.ReadsAnswerTheMappedRegister
  intro s off rest h4 hin
  refine ⟨regRead off s, ?_, fun h => ?_, fun h => ?_, fun h => ?_, fun h => ?_, fun x i hi h => ?_,
    fun j i hi h => ?_, fun h => ?_⟩
  · rw [step_regRead s off rest h4 hin, regRead_inputs]
  · obtain rfl : off = 0x000 := BitVec.eq_of_toNat_eq h
    exact regRead_id s
  · obtain rfl : off = 0x004 := BitVec.eq_of_toNat_eq h
    exact (regRead_ctrl s).trans (ctrlWord_eq s)
  · obtain rfl : off = 0x008 := BitVec.eq_of_toNat_eq h
    exact regRead_cmd s
  · obtain rfl : off = 0x00C := BitVec.eq_of_toNat_eq h
    exact regRead_status s
  · exact regRead_operand s off x i hi h
  · exact regRead_result s off j i hi h
  · exact regRead_reserved s off h4 h

/-- Settles O43: the register after the write is `setWord` of the register before it. -/
theorem operandWriteSetsOneWord : Obligations.OperandWriteSetsOneWord := by
  unfold Obligations.OperandWriteSetsOneWord
  intro s x i v rest hi hin
  have hword : ∀ j < s.cfg.opwWords, 32 * j + 32 ≤ s.cfg.width := fun j hj => by
    show 32 * j + 32 ≤ 32 * s.cfg.opwWords
    omega
  refine ⟨setWord (operand s x) i v, getWord_setWord_same _ i v (hword i hi),
    fun j hj hne => getWord_setWord_other _ i j v hne (hword j hj), ?_⟩
  rw [step_writeOperand s x i v rest hi hin]
  cases x <;> rfl

/-- Settles O50, from `step_end_sets_done_or_resets` and `step_done_eq_false_iff`. -/
theorem doneIsClearedExactlyByAckAcceptOrReset : Obligations.DoneIsClearedExactlyByAckAcceptOrReset := by
  unfold Obligations.DoneIsClearedExactlyByAckAcceptOrReset
  exact ⟨step_end_sets_done_or_resets, step_done_eq_false_iff⟩

/-- Settles O46: the fields of `idWord`, a function of the configuration, which `step_cfg` keeps. -/
theorem idWordHoldsItsFields : Obligations.IdWordHoldsItsFields := by
  unfold Obligations.IdWordHoldsItsFields
  intro s
  simp only [regRead_id]
  exact ⟨idWord_version s.cfg, idWord_opwWords s.cfg, idWord_ncmd s.cfg, idWord_magic s.cfg,
    idWord_of_two_words s.cfg, fun v => regWrite_id v s, fun t ht => congrArg idWord (step_cfg s t ht)⟩

/-- Settles O47: the fields of `statusWord` and what `writeStatus` changes. -/
theorem statusWordHoldsItsFields : Obligations.StatusWordHoldsItsFields := by
  unfold Obligations.StatusWordHoldsItsFields
  simp only [regRead_status, regWrite_status]
  refine ⟨statusWord_resetOf, fun s => ?_⟩
  obtain ⟨hlow, hmid, hhigh⟩ := statusWord_reserved s
  refine ⟨statusWord_busy s, statusWord_done s, (statusWord_err s).trans (errBit_eq s), statusWord_ovr s, hlow, ?_, hmid,
    statusWord_rcount s, hhigh, fun v => writeStatus_eq v s⟩
  rw [statusWord_errcode]
  cases s.errcode <;> rfl

/-- Settles O48: the write is `writeCtrl_ie`, the read `ctrlWord_eq`. -/
theorem ctrlWriteSetsInterruptEnable : Obligations.CtrlWriteSetsInterruptEnable := by
  unfold Obligations.CtrlWriteSetsInterruptEnable
  refine ⟨fun c => rfl, fun s v rest hv hin => ⟨_, ?_, rfl, rfl, ?_⟩⟩
  · rw [step_regWrite s 0x004 v rest (by decide) hin, regWrite_ctrl, writeCtrl_ie v _ hv]
    rfl
  · rw [regRead_ctrl, ctrlWord_eq]

end Sys2Proof.Machine
end

section
/-! The statements of spec/20_memory.md on accesses that change no register: reserved offsets and ignored writes (R63)
and illegal accesses (R62), with the lemmas they need. -/

namespace Sys2Proof.Machine

/-! ## Writes the register window ignores (R63) -/

/-- A word of a window names what the window holds there, or nothing. -/
theorem windowTarget_cases (k i : Nat) (t : Target) : windowTarget k i t = t ∨ windowTarget k i t = .reserved :=
  ite_eq_or_eq (i < k) t .reserved

/-- An offset in 0x800..0xBFF names a result word or nothing (R21). -/
theorem target_of_result_range (k : Nat) (off : Offset) (hlo : 0x800 ≤ off.toNat) (hhi : off.toNat < 0xC00) :
    (∃ j i, target k off = .result j i) ∨ target k off = .reserved := by
  have hpage : ∃ j, target k off = windowTarget k (off.toNat % 0x100 / 4) (.result j (off.toNat % 0x100 / 4)) := by
    have h8 : 8 ≤ off.toNat / 0x100 := by omega
    have h12 : off.toNat / 0x100 < 12 := by omega
    rw [target]
    interval_cases off.toNat / 0x100
    · exact ⟨.r0, rfl⟩
    · exact ⟨.r1, rfl⟩
    · exact ⟨.r2, rfl⟩
    · exact ⟨.r3, rfl⟩
  obtain ⟨j, hj⟩ := hpage
  rw [hj]
  exact (windowTarget_cases k _ (.result j _)).imp_left fun h => ⟨j, _, h⟩

/-- A write to the result windows changes nothing, whether its word is a result word or reserved (R25, R63). -/
theorem regWrite_result_range (s : State) (off : Offset) (v : Word) (hlo : 0x800 ≤ off.toNat) (hhi : off.toNat < 0xC00) :
    regWrite off v s = s := by
  rcases target_of_result_range s.cfg.opwWords off hlo hhi with ⟨j, i, h⟩ | h <;> rw [regWrite, h]

/-- The writes of R63 change nothing: to reserved offsets, to ID and to the result windows. -/
theorem regWrite_ignored (s : State) (off : Offset) (v : Word) (h4 : off.toNat % 4 = 0)
    (h : reservedOffset s.cfg.opwWords off ∨ off = 0x000 ∨ (0x800 ≤ off.toNat ∧ off.toNat < 0xC00)) :
    regWrite off v s = s := by
  rcases h with hres | rfl | ⟨hlo, hhi⟩
  · exact regWrite_reserved s off v h4 hres
  · exact regWrite_id v s
  · exact regWrite_result_range s off v hlo hhi

/-! ## Illegal accesses (R62) -/

/-- An address in the window has the offset `addr − BASE` (R60). -/
theorem windowOffset_of_mem (c : Config) (addr : Nat) (hlo : c.base ≤ addr) (hhi : addr < c.base + 4096) :
    ∃ off, windowOffset c addr = some off ∧ off.toNat = addr - c.base := by
  cases h : windowOffset c addr with
  | none =>
    have hout := (windowOffset_eq_none_iff c addr).mp h
    omega
  | some off =>
    have haddr := addr_of_windowOffset c addr off h
    exact ⟨off, rfl, by omega⟩

theorem legalShape_eq_false_iff (off : Offset) (size : Nat) :
    legalShape off size = false ↔ off.toNat % 4 ≠ 0 ∨ size ≠ 4 := by
  rw [legalShape, Bool.and_eq_false_iff, beq_eq_false_iff_ne, beq_eq_false_iff_ne]

/-- A read of an illegal shape gets the bus error with data 0. -/
theorem busAccess_illegal_read (s : State) (addr size : Nat) (off : Offset) (ho : windowOffset s.cfg addr = some off)
    (h : off.toNat % 4 ≠ 0 ∨ size ≠ 4) :
    busAccess (.read addr size) s = .next (answer (.readError 0) s) := by
  simp [busAccess, ho, (legalShape_eq_false_iff off size).mpr h]

/-- A write of an illegal shape, or without all byte enables, gets the bus error. -/
theorem busAccess_illegal_write (s : State) (addr size : Nat) (be : BitVec 4) (v : Word) (off : Offset)
    (ho : windowOffset s.cfg addr = some off) (h : off.toNat % 4 ≠ 0 ∨ size ≠ 4 ∨ be ≠ 0xF) :
    busAccess (.write addr size be v) s = .next (answer .writeError s) := by
  have hillegal : (legalShape off size && be == 0xF#4) = false := by
    rw [Bool.and_eq_false_iff, legalShape_eq_false_iff, beq_eq_false_iff_ne, or_assoc]
    exact h
  simp [busAccess, ho, hillegal]

/-! ## The statements -/

/-- Settles O41, from `regRead_reserved` and `regWrite_ignored`. -/
theorem reservedOffsetsReadZeroAndIgnoreWrites : Obligations.ReservedOffsetsReadZeroAndIgnoreWrites := by
  unfold Obligations.ReservedOffsetsReadZeroAndIgnoreWrites
  refine fun s off rest h4 => ⟨fun hres hin => ?_, fun v hoff hin => ?_⟩
  · rw [step_regRead s off rest h4 hin, regRead_inputs, regRead_reserved s off h4 hres]
  · rw [step_regWrite s off v rest h4 hin, regWrite_ignored { s with inputs := rest } off v h4 hoff]
    rfl

/-- Settles O42, from `busAccess_illegal_read` and `busAccess_illegal_write` at the address's offset. -/
theorem illegalAccessesGetABusErrorOnly : Obligations.IllegalAccessesGetABusErrorOnly := by
  unfold Obligations.IllegalAccessesGetABusErrorOnly
  intro s addr size rest hlo hhi
  obtain ⟨off, ho, hoff⟩ := windowOffset_of_mem s.cfg addr hlo hhi
  rw [← hoff]
  refine ⟨fun h hin => ?_, fun be v h hin => ?_⟩
  · rw [step_access s _ rest hin]
    exact busAccess_illegal_read { s with inputs := rest } addr size off ho h
  · rw [step_access s _ rest hin]
    exact busAccess_illegal_write { s with inputs := rest } addr size be v off ho h

end Sys2Proof.Machine
end

section
/-! The statements of spec/30_encoding.md on the word of each command (R91) and on valid and illegal words (R92). -/

namespace Sys2Proof

/-- The words outside R92 are decode errors. -/
theorem decode_invalid_iff (w : Word) :
    (∃ e, decode w = .error e) ↔ ¬ (rsvdField w = 0 ∧ 1 ≤ (opcodeField w).toNat ∧ (opcodeField w).toNat ≤ 7) := by
  rw [← decode_valid_iff]
  cases decode w <;> simp

end Sys2Proof

namespace Sys2Proof.Machine

/-- Settles O2, from `decode_eq_ok`: the word of the table is `encode` of the command. -/
theorem wordSelectsCommandExactlyWhenEqual : Obligations.WordSelectsCommandExactlyWhenEqual := by
  unfold Obligations.WordSelectsCommandExactlyWhenEqual
  intro w i
  rw [decode_eq_ok]
  cases i <;> rfl

/-- Settles O3: an engine's turn of `inputs` is `engineTurn`, on a word that decodes (`decode_valid_iff`) or does not
(`decode_invalid_iff`). -/
theorem validWordsRunAndOthersAreBadCommands : Obligations.ValidWordsRunAndOthersAreBadCommands := by
  unfold Obligations.ValidWordsRunAndOthersAreBadCommands
  intro s snap draws rest hp hin
  rw [step_engine s rest hin]
  refine ⟨fun hvalid => ?_, fun hinvalid => ?_⟩
  · obtain ⟨i, hi⟩ := (decode_valid_iff snap.word).mpr hvalid
    exact ⟨i, hi, engineTurn_valid { s with inputs := rest } snap draws i hp hi⟩
  · obtain ⟨e, he⟩ := (decode_invalid_iff snap.word).mpr hinvalid
    exact engineTurn_illegal { s with inputs := rest } snap draws e hp he

end Sys2Proof.Machine
end

section
/-! The statements of spec/40_command_lifecycle.md: the accept step (R110, R111), the completion step (R113, R115), what
the outcome depends on (R117) and the frame of every command (R119). -/

namespace Sys2Proof.Machine

/-! ## The ends of a command, as a frame and as an outcome -/

/-- `t` differs from `s` only in what a command's end writes: RES0..RES3, RCOUNT, ERRCODE, DONE and the phase. -/
def completionFrame (s t : State) : Prop :=
  ∃ r0 r1 r2 r3 k c d p, t = { s with
    res0 := r0, res1 := r1, res2 := r2, res3 := r3, rcount := k, errcode := c, done := d, phase := p }

/-- Waiting and both ends of a command keep the frame. -/
theorem completionFrame_of_end {s t : State}
    (h : t = s ∨ (∃ vs, t = s.withRoots vs) ∨ ∃ c, t = s.withError c) : completionFrame s t := by
  rcases h with rfl | ⟨vs, rfl⟩ | ⟨c, rfl⟩
  · exact ⟨_, _, _, _, _, _, _, _, rfl⟩
  · exact ⟨_, _, _, _, _, _, _, _, rfl⟩
  · exact ⟨_, _, _, _, _, _, _, _, rfl⟩

theorem exec_completionFrame (i : Instr) (s t : State) (h : exec i s = .next t) : completionFrame s t := by
  rcases exec_cases i s t h with h' | ⟨-, ⟨vs, -, -, h'⟩ | ⟨c, -, h'⟩⟩
  · exact completionFrame_of_end (.inl h')
  · exact completionFrame_of_end (.inr (.inl ⟨vs, h'⟩))
  · exact completionFrame_of_end (.inr (.inr ⟨c, h'⟩))

theorem engineTurn_completionFrame (s t : State) (h : engineTurn s = .next t) : completionFrame s t :=
  completionFrame_of_end (engineTurn_next_cases s t h)

/-- Reads of the window see nothing of the frame but STATUS and the result registers. -/
theorem regRead_of_completionFrame {s t : State} (h : completionFrame s t) (off : Offset) (h4 : off.toNat % 4 = 0)
    (hstatus : off ≠ 0x00C) (hres : ¬ (0x800 ≤ off.toNat ∧ off.toNat < 0xC00)) : regRead off t = regRead off s := by
  obtain ⟨r0, r1, r2, r3, k, c, d, p, rfl⟩ := h
  exact regRead_of_completion off s r0 r1 r2 r3 k c d p h4 hstatus hres

/-- Only FERMAT looks at the draws (R117). -/
theorem outcomeOf_draws {w : Nat} (i : Instr) (snap : Snapshot w) (draws draws' : List (BitVec w))
    (h : i = .fermat → draws' = draws) : outcomeOf i snap draws' = outcomeOf i snap draws := by
  cases i with
  | fermat => rw [h rfl]
  | modexp | egcd | crt | msqrt | rsqrt | smooth => rfl

/-- One outcome ends the commands of two states of one configuration alike: what the range check sees is the width. -/
theorem complete_alike (o : CmdOutcome) (s t : State) (hcfg : t.cfg = s.cfg) :
    (∃ vs, complete o s = s.withRoots vs ∧ complete o t = t.withRoots vs) ∨
      ∃ c, complete o s = s.withError c ∧ complete o t = t.withError c := by
  simp only [complete, hcfg]
  cases rangeCheck s.cfg.width o with
  | ok vs => exact .inl ⟨vs, completeOk_eq vs s, completeOk_eq vs t⟩
  | fail c => exact .inr ⟨c, completeFail_eq c s, completeFail_eq c t⟩

/-! ## The statements -/

/-- Settles O13, from the frame of `exec` and of `engineTurn`, and `regRead_of_completionFrame` for the window. -/
theorem commandsChangeOnlyResultsAndStatus : Obligations.CommandsChangeOnlyResultsAndStatus := by
  unfold Obligations.CommandsChangeOnlyResultsAndStatus
  refine ⟨fun i s t h => ?_, fun s t rest hin h => ?_⟩
  · have hframe := exec_completionFrame i s t h
    exact ⟨hframe, regRead_of_completionFrame hframe⟩
  · rw [step_engine s rest hin] at h
    exact engineTurn_completionFrame { s with inputs := rest } t h

/-- Settles O15: both states have the same `outcomeOf`, none where both wait, else an outcome that ends both alike. -/
theorem outcomeDependsOnSnapshotAndDrawsOnly : Obligations.OutcomeDependsOnSnapshotAndDrawsOnly := by
  unfold Obligations.OutcomeDependsOnSnapshotAndDrawsOnly
  intro i s snap draws draws' a b c d r0 r1 r2 r3 x p o w e k ins r hp hdraws t
  have hsame := outcomeOf_draws i snap draws draws' hdraws
  cases ho : outcomeOf i snap draws with
  | none => exact .inl ⟨exec_waits i s snap draws hp ho, exec_waits i t snap draws' rfl (hsame.trans ho)⟩
  | some out =>
    rw [exec_done i s snap draws out hp ho, exec_done i t snap draws' out rfl (hsame.trans ho)]
    rcases complete_alike out s t rfl with ⟨vs, hs, ht⟩ | ⟨code, hs, ht⟩
    · exact .inr (.inl ⟨vs, congrArg _ hs, congrArg _ ht⟩)
    · exact .inr (.inr ⟨code, congrArg _ hs, congrArg _ ht⟩)

/-- Settles O10, from `step_regWrite` and `writeCmd_idle`: the state after the write is `accept`, with the answer. -/
theorem commandWriteWhileIdleIsAccepted : Obligations.CommandWriteWhileIdleIsAccepted := by
  unfold Obligations.CommandWriteWhileIdleIsAccepted
  intro s v rest hp hin
  refine ⟨?_, rfl, rfl⟩
  rw [step_regWrite s 0x008 v rest (by decide) hin, regWrite_cmd, writeCmd_idle v { s with inputs := rest } hp]
  rfl

/-- Settles O11, from `step_regWrite` and `writeCmd_busy`. -/
theorem commandWriteWhileBusyOnlySetsOverrun : Obligations.CommandWriteWhileBusyOnlySetsOverrun := by
  unfold Obligations.CommandWriteWhileBusyOnlySetsOverrun
  intro s snap draws v rest hp hin
  have hbusy : busyBit { s with inputs := rest } = true := by simp [busyBit, hp]
  rw [step_regWrite s 0x008 v rest (by decide) hin, regWrite_cmd, writeCmd_busy v { s with inputs := rest } hbusy]
  rfl

/-- Settles O12, from `complete_ok`, `complete_range` and `complete_fail`; at most four results fit RCOUNT's three bits. -/
theorem completionStepWritesTheOutcome : Obligations.CompletionStepWritesTheOutcome := by
  unfold Obligations.CompletionStepWritesTheOutcome
  simp only [← fitsW_iff, Bool.not_eq_true]
  refine fun s vs c hlen => ⟨fun hfit => ⟨BitVec.ofNat 3 vs.length, ?_, complete_ok vs s hfit⟩,
    fun hrange => complete_range vs s hrange, complete_fail c s⟩
  rw [BitVec.toNat_ofNat]
  exact Nat.mod_eq_of_lt (by omega)

end Sys2Proof.Machine
end

section
/-! The statements of spec/41_modular_arithmetic.md on EGCD (R150) and on crt_fn and CRT (R143, R144, R155). -/

namespace Sys2Proof.Machine

/-! ## The range of results, and the branches of the outcomes -/

/-- A non-negative result meets only the upper end of the range (R8). -/
theorem fitsW_iff_le_of_nonneg (w : Nat) (v : Int) (h : 0 ≤ v) : fitsW w v = true ↔ v ≤ 2 ^ (w - 1) - 1 := by
  have hlow : -(2 ^ (w - 1) : Int) ≤ v := (neg_nonpos.mpr (by positivity)).trans h
  rw [fitsW_iff, and_iff_right hlow]

theorem egcdOutcome_eq_ok (a b g x y : Int) (h : egcdFn a b = (g, x, y)) : egcdOutcome a b = .ok [g, x, y] := by
  simp [egcdOutcome, h]

theorem crtOutcome_of_lt_one (a b p q : Int) (h : p < 1 ∨ q < 1) : crtOutcome a b p q = .fail .badModulus :=
  if_pos h

/-- CRT's check of egcd_fn's first component is a check of the gcd. -/
theorem crtOutcome_of_one_le (a b p q : Int) (hp : 1 ≤ p) (hq : 1 ≤ q) :
    crtOutcome a b p q = if Int.gcd p q = 1 then .ok [crtFn a b p q] else .fail .notCoprime := by
  rw [crtOutcome, if_neg (by omega), egcdFn_gcd, ite_not]
  simp only [Nat.cast_eq_one]

/-! ## The statements -/

/-- Settles O22: crt_fn is such a residue (`crtFn_spec`), and there is no other (`eq_of_residues`). -/
theorem crtFunctionIsTheUniqueResidue : Obligations.CrtFunctionIsTheUniqueResidue := by
  unfold Obligations.CrtFunctionIsTheUniqueResidue
  intro a b p q hp hq hc x
  obtain ⟨hpos, hlt, hmodp, hmodq⟩ := crtFn_spec a b p q hp hq hc
  constructor
  · rintro ⟨hx, hxlt, hxp, hxq⟩
    exact eq_of_residues x (crtFn a b p q) p q hc hx hxlt hpos hlt (hxp.trans hmodp.symm) (hxq.trans hmodq.symm)
  · rintro rfl
    exact ⟨hpos, hlt, hmodp, hmodq⟩

/-- Settles O21: the outcome is the list [g, x, y], which `complete_ok` writes and `complete_range` refuses. -/
theorem egcdCompletes : Obligations.EgcdCompletes := by
  unfold Obligations.EgcdCompletes
  intro s snap draws g x y hphase hfn
  rw [exec_done .egcd s snap draws _ hphase rfl, egcdOutcome_eq_ok _ _ g x y hfn]
  refine ⟨fun hfit => ?_, fun hrange => ?_⟩
  · rw [complete_ok [g, x, y] s (by simpa using hfit)]
    rfl
  · have hbad : ∃ v ∈ [g, x, y], fitsW s.cfg.width v = false := by
      by_contra hall
      exact hrange (by simpa using hall)
    rw [complete_range [g, x, y] s hbad]

/-- Settles O23, from the branches of `crtOutcome`; with coprime moduli `x` is crt_fn's value by O22, and being
non-negative it fails the range check only above. -/
theorem crtCompletes : Obligations.CrtCompletes := by
  unfold Obligations.CrtCompletes
  intro s snap draws hphase
  rw [exec_done .crt s snap draws _ hphase rfl]
  refine ⟨fun hmod => ?_, fun hp hq hgcd => ?_, fun hp hq hgcd x hx hlt hxp hxq => ?_⟩
  · rw [crtOutcome_of_lt_one _ _ _ _ hmod, complete_fail]
  · rw [crtOutcome_of_one_le _ _ _ _ hp hq, if_neg hgcd, complete_fail]
  · rw [crtOutcome_of_one_le _ _ _ _ hp hq, if_pos hgcd,
      ← (crtFunctionIsTheUniqueResidue _ _ _ _ hp hq hgcd x).mp ⟨hx, hlt, hxp, hxq⟩]
    have hfits := fitsW_iff_le_of_nonneg s.cfg.width x hx
    refine ⟨fun hle => ?_, fun hgt => ?_⟩
    · rw [complete_ok [x] s (by simpa using hfits.mpr hle)]
      rfl
    · have hbad : fitsW s.cfg.width x = false := Bool.eq_false_iff.mpr fun h => (hfits.mp h).not_gt hgt
      rw [complete_range [x] s ⟨x, List.mem_singleton_self x, hbad⟩]

end Sys2Proof.Machine
end

section
/-! The statements of spec/42_primality.md on the witness port: when a draw is taken (R180) and what ends the wait for
one (R181). -/

namespace Sys2Proof.Machine

/-! ## The offered value (R180) -/

/-- A running command raises wit_ready exactly while it awaits a draw. -/
theorem witReady_of_busy (s : State) (snap : Snapshot s.cfg.width) (draws : List (BitVec s.cfg.width))
    (h : s.phase = .busy snap draws) : witReady s = awaitsDraw snap draws := by
  simp [witReady, h]

/-- A value offered while wit_ready is 1 is appended to the draws. -/
theorem offerWitness_of_ready (s : State) (r : BitVec s.cfg.width) (snap : Snapshot s.cfg.width)
    (draws : List (BitVec s.cfg.width)) (hp : s.phase = .busy snap draws) (h : witReady s = true) :
    offerWitness s r = { s with phase := .busy snap (draws ++ [r]) } := by
  have ha : awaitsDraw snap draws = true := (witReady_of_busy s snap draws hp).symm.trans h
  simp [offerWitness, hp, ha]

/-- A value offered while wit_ready is 0 is dropped. -/
theorem offerWitness_of_not_ready (s : State) (r : BitVec s.cfg.width) (h : witReady s = false) :
    offerWitness s r = s := by
  rcases offerWitness_cases s r with ⟨-, he⟩ | ⟨_, _, -, -, hready, -⟩
  · exact he
  · simp [h] at hready

/-! ## The turns that leave the wait as it is (R181) -/

/-- `t` differs from `s` only in what host accesses may write during a wait: the operands, IE, DONE, OVR, the coming
turns and the port's answer. The phase, the results, CMD, ERRCODE and RCOUNT are kept. -/
def waitFrame (s t : State) : Prop :=
  ∃ a b c d x p o ins r, t = { s with
    opa := a, opb := b, opc := c, opd := d, ie := x, done := p, ovr := o, inputs := ins, resp := r }

theorem waitFrame_refl (s : State) : waitFrame s s := ⟨_, _, _, _, _, _, _, _, _, rfl⟩

/-- Taking the turn off the list is within the frame. -/
theorem waitFrame_of_inputs {s t : State} {ins : List (Event s.cfg.width)}
    (h : waitFrame { s with inputs := ins } t) : waitFrame s t := h

theorem waitFrame_answer {s t : State} (r : BusResponse) (h : waitFrame s t) : waitFrame s (answer r t) := by
  obtain ⟨a, b, c, d, x, p, o, ins, r', rfl⟩ := h
  exact ⟨_, _, _, _, _, _, _, _, _, rfl⟩

/-- A legal write while BUSY is a soft reset or within the frame. -/
theorem regWrite_resets_or_waitFrame (off : Offset) (v : Word) (s : State) (h4 : off.toNat % 4 = 0)
    (hs : s.phase ≠ .idle) : (off = 0x004 ∧ v.getLsbD 1 = true) ∨ waitFrame s (regWrite off v s) := by
  rcases regWrite_cases off v s h4 with ⟨h, -⟩ | ⟨hp, -, -⟩ | ⟨-, -, h⟩ | ⟨-, h⟩ | ⟨hoff, hv, -⟩ | ⟨-, -, h⟩ |
    ⟨a, b, c, d, h, -⟩
  case inr.inl => exact absurd hp hs
  case inr.inr.inr.inr.inl => exact .inl ⟨hoff, hv⟩
  all_goals
    rw [h]
    exact .inr ⟨_, _, _, _, _, _, _, _, _, rfl⟩

/-- The engine's turn during a wait is within the frame: it changes nothing. -/
theorem engineTurn_waitFrame (s t : State) (hw : witReady s = true) (h : engineTurn s = .next t) : waitFrame s t := by
  obtain rfl := Host.Outcome.next.inj ((engineTurn_waits s hw).symm.trans h)
  exact waitFrame_refl s

theorem phase_ne_idle_of_witReady (s : State) (h : witReady s = true) : s.phase ≠ .idle := by
  intro hp
  simp [witReady, hp] at h

/-! ## The statements -/

/-- Settles O26, from `awaitsDraw_iff` and `fermatOutcome_eq_none_iff` for wit_ready, and `offerWitness_of_ready` and
`offerWitness_of_not_ready` for the offered value. -/
theorem drawsAreTakenExactlyWhenNeeded : Obligations.DrawsAreTakenExactlyWhenNeeded := by
  unfold Obligations.DrawsAreTakenExactlyWhenNeeded
  refine ⟨fun s hp => ?_, fun s snap draws hp => ⟨?_, fun r rest hin hw => ?_⟩, fun s r rest hin hw => ?_⟩
  · exact Bool.eq_false_iff.mpr fun hw => phase_ne_idle_of_witReady s hw hp
  · rw [witReady_of_busy s snap draws hp, awaitsDraw_iff, fermatOutcome_eq_none_iff]
  · have hw' := (witReady_inputs s rest).trans hw
    rw [step_witness s r rest hin, offerWitness_of_ready { s with inputs := rest } r snap draws hp hw']
  · have hw' := (witReady_inputs s rest).trans hw
    rw [step_witness s r rest hin, offerWitness_of_not_ready { s with inputs := rest } r hw']

/-- Settles O27, turn by turn: the engine waits, an access answers within the frame, and a write outside it is a soft
reset. -/
theorem onlyDrawOrResetEndsTheWait : Obligations.OnlyDrawOrResetEndsTheWait := by
  unfold Obligations.OnlyDrawOrResetEndsTheWait
  intro s t hw h
  rcases step_cases s t h with ⟨-, he⟩ | ⟨ev, rest, hi, hturn⟩
  · exact .inr (.inr (engineTurn_waitFrame s t hw he))
  rcases hturn with ⟨-, he⟩ | ⟨r, rfl, -⟩ | ⟨rfl, -⟩ | ⟨a, r, -, rfl, -⟩ | ⟨off, v, h4, rfl, rfl⟩
  · have hw' := (witReady_inputs s rest).trans hw
    exact .inr (.inr (waitFrame_of_inputs (engineTurn_waitFrame { s with inputs := rest } t hw' he)))
  · exact .inl ⟨r, rest, hi⟩
  · exact .inr (.inl ⟨_, rest, hi, .inl rfl⟩)
  · exact .inr (.inr (waitFrame_of_inputs (waitFrame_answer r (waitFrame_refl { s with inputs := rest }))))
  · have hs := phase_ne_idle_of_witReady s hw
    rcases regWrite_resets_or_waitFrame off v { s with inputs := rest } h4 hs with ⟨rfl, hv⟩ | hframe
    · exact .inr (.inl ⟨_, rest, hi, .inr ⟨v, hv, rfl⟩⟩)
    · exact .inr (.inr (waitFrame_of_inputs (waitFrame_answer .writeOk hframe)))

end Sys2Proof.Machine
end

section
/-! The statement of spec/44_smooth_exponent.md on SMOOTH's ends (R235, with the product of R230). -/

namespace Sys2Proof.Machine

/-! ## The branches of the outcome, and the end with one non-negative result -/

theorem smoothOutcome_of_neg (bound : Int) (h : bound < 0) : smoothOutcome bound = .fail .badBound :=
  if_pos h

theorem smoothOutcome_of_nonneg (bound : Int) (h : 0 ≤ bound) :
    smoothOutcome bound = .ok [(smoothFn bound.toNat : Int)] :=
  if_neg h.not_gt

/-- One non-negative result that does not exceed 2^(W−1)−1 is written to RES0, with RCOUNT = 1. -/
theorem complete_single_of_le (s : State) (v : Int) (h : 0 ≤ v) (hle : v ≤ 2 ^ (s.cfg.width - 1) - 1) :
    complete (.ok [v]) s = s.withResults 1 v 0 0 0 := by
  have hfit : fitsW s.cfg.width v = true := (fitsW_iff_le_of_nonneg s.cfg.width v h).mpr hle
  rw [complete_ok [v] s (by simpa using hfit)]
  rfl

/-- One non-negative result above 2^(W−1)−1 ends the command with RANGE. -/
theorem complete_single_of_gt (s : State) (v : Int) (h : 0 ≤ v) (hgt : 2 ^ (s.cfg.width - 1) - 1 < v) :
    complete (.ok [v]) s = s.withError .range := by
  have hbad : fitsW s.cfg.width v = false :=
    Bool.eq_false_iff.mpr fun hfit => ((fitsW_iff_le_of_nonneg s.cfg.width v h).mp hfit).not_gt hgt
  exact complete_range [v] s ⟨v, List.mem_singleton_self v, hbad⟩

/-! ## The statement -/

/-- Settles O37, from the branches of `smoothOutcome`; the product is smooth_fn's value by `smoothFn_eq`, and being
non-negative it fails the range check only above. -/
theorem smoothCompletes : Obligations.SmoothCompletes := by
  unfold Obligations.SmoothCompletes
  intro s snap draws l hphase hl
  rw [← smoothFn_eq] at hl
  have hpos : 0 ≤ l := hl ▸ Int.natCast_nonneg _
  rw [exec_done .smooth s snap draws _ hphase rfl]
  refine ⟨fun hneg => ?_, fun hbound hle => ?_, fun hbound hgt => ?_⟩
  · rw [smoothOutcome_of_neg _ hneg, complete_fail]
  · rw [smoothOutcome_of_nonneg _ hbound, ← hl, complete_single_of_le s l hpos hle]
  · rw [smoothOutcome_of_nonneg _ hbound, ← hl, complete_single_of_gt s l hpos hgt]

end Sys2Proof.Machine
end

section
/-! The statements of spec/30_encoding.md on the bytes of a command word (R91, R97), with the byte lanes of
spec/20_memory.md R65. -/

namespace Sys2Proof

/-! ## The decoder on bytes -/

/-- Four bytes are the encoding of a command exactly when their word is its word (R65). -/
theorem encodeBytes_eq_iff (i : Instr) (b0 b1 b2 b3 : Byte) :
    encodeBytes i = [b0, b1, b2, b3] ↔ wordOfLanes b0 b1 b2 b3 = encode i := by
  constructor
  · intro h
    simp only [encodeBytes, List.cons.injEq, and_true] at h
    obtain ⟨rfl, rfl, rfl, rfl⟩ := h
    exact wordOfLanes_laneOf (encode i)
  · intro h
    obtain ⟨h0, h1, h2, h3⟩ := laneOf_wordOfLanes b0 b1 b2 b3
    rw [encodeBytes, ← h, h0, h1, h2, h3]

theorem encodeBytes_length (i : Instr) : (encodeBytes i).length = 4 := rfl

/-- Four bytes and more decode as their first word, with the other bytes left over. -/
theorem decodeBytes_word_eq_ok (b0 b1 b2 b3 : Byte) (tl rest : List Byte) (i : Instr) :
    decodeBytes (b0 :: b1 :: b2 :: b3 :: tl) = .ok (i, rest) ↔
      decode (wordOfLanes b0 b1 b2 b3) = .ok i ∧ tl = rest := by
  rw [decodeBytes]
  cases decode (wordOfLanes b0 b1 b2 b3) <;> simp

/-- Fewer than four bytes are no command (R97). -/
theorem decodeBytes_of_length_lt (bs : List Byte) (h : bs.length < 4) : decodeBytes bs = .error .truncated := by
  match bs, h with
  | [], _ | [_], _ | [_, _], _ | [_, _, _], _ => rfl

/-- The byte decoder answers exactly the command whose bytes stand in front (R65, R91). -/
theorem decodeBytes_eq_ok_iff (bs rest : List Byte) (i : Instr) :
    decodeBytes bs = .ok (i, rest) ↔ bs = encodeBytes i ++ rest := by
  rcases Nat.lt_or_ge bs.length 4 with hlt | hge
  · rw [decodeBytes_of_length_lt bs hlt]
    refine iff_of_false (by simp) fun h => ?_
    have hlen := congrArg List.length h
    rw [List.length_append, encodeBytes_length] at hlen
    omega
  · obtain ⟨b0, b1, b2, b3, tl, rfl⟩ : ∃ b0 b1 b2 b3 tl, bs = b0 :: b1 :: b2 :: b3 :: tl := by
      match bs, hge with
      | b0 :: b1 :: b2 :: b3 :: tl, _ => exact ⟨b0, b1, b2, b3, tl, rfl⟩
    rw [decodeBytes_word_eq_ok, decode_eq_ok, ← encodeBytes_eq_iff]
    have hlen : (encodeBytes i).length = [b0, b1, b2, b3].length := encodeBytes_length i
    constructor
    · rintro ⟨he, rfl⟩
      rw [he]
      rfl
    · intro h
      obtain ⟨he, hrest⟩ := List.append_inj (s₁ := [b0, b1, b2, b3]) h hlen.symm
      exact ⟨he.symm, hrest⟩

/-- Every command's word is valid (R92). -/
theorem wellFormed_eq_true (i : Instr) : i.wellFormed = true := by
  obtain ⟨hrsvd, hlo, hhi⟩ := (decode_valid_iff (encode i)).mp ⟨i, decode_encode i⟩
  simp [Instr.wellFormed, validWord, hrsvd, hlo, hhi]

/-! ## The statements -/

/-- Settles O4, from `wellFormed_eq_true` and `decodeBytes_eq_ok_iff`. -/
theorem bytesDecodeExactlyFromEncoding : Obligations.BytesDecodeExactlyFromEncoding := by
  unfold Obligations.BytesDecodeExactlyFromEncoding
  exact fun bs rest i => ⟨wellFormed_eq_true i, decodeBytes_eq_ok_iff bs rest i⟩

/-- Settles O1: each word or byte list is `encode` or `encodeBytes` of its command. -/
theorem specWordsDecodeToTheirCommands : Obligations.SpecWordsDecodeToTheirCommands := by
  unfold Obligations.SpecWordsDecodeToTheirCommands
  exact ⟨decode_encode .modexp, decode_encode .crt, decode_encode .fermat, decode_encode .rsqrt, decode_encode .smooth,
    (decodeBytes_eq_ok_iff _ _ _).mpr rfl, (decodeBytes_eq_ok_iff _ _ _).mpr rfl⟩

end Sys2Proof
end

section
/-! The invariant (spec/10_state.md R25, R38, R41, R42) under every step, and what it says of a running command
(spec/70_reset_and_hazards.md R295). -/

namespace Sys2Proof.Machine

/-! ## The invariant under each turn -/

/-- Neither the coming turns nor the port's answer are in the invariant. -/
theorem inv_inputs {s : State} (ins : List (Event s.cfg.width)) (h : Inv s) : Inv { s with inputs := ins } := h

theorem inv_answer {s : State} (r : BusResponse) (h : Inv s) : Inv (answer r s) := h

/-- An accept starts with no draws and with DONE, ERRCODE and RCOUNT 0 (R110). -/
theorem inv_accept (v : Word) (s : State) : Inv (accept v s) := by
  refine ⟨by simp, fun hp => by simp at hp, fun snap draws hp => ?_⟩
  obtain ⟨rfl, rfl⟩ := Phase.busy.inj hp
  exact ⟨⟨rfl, rfl, rfl, rfl⟩, fun k hk => absurd hk (Nat.not_lt_zero k)⟩

/-- A STATUS write clears DONE at most, which the invariant allows in either phase. -/
theorem inv_writeStatus (v : Word) {s : State} (h : Inv s) : Inv (writeStatus v s) := by
  obtain ⟨hcount, hidle, hbusy⟩ := h
  refine ⟨hcount, hidle, fun snap draws hp => ?_⟩
  obtain ⟨⟨hcmd, hdone, herr, hrc⟩, hdraws⟩ := hbusy snap draws hp
  exact ⟨⟨hcmd, by rw [writeStatus_done, hdone, Bool.false_and], herr, hrc⟩, hdraws⟩

theorem inv_regWrite (off : Offset) (v : Word) {s : State} (h4 : off.toNat % 4 = 0) (h : Inv s) :
    Inv (regWrite off v s) := by
  rcases regWrite_cases off v s h4 with ⟨he, -⟩ | ⟨-, -, he⟩ | ⟨-, -, he⟩ | ⟨-, he⟩ | ⟨-, -, he⟩ | ⟨-, -, he⟩ |
    ⟨a, b, c, d, he, -⟩ <;> rw [he]
  · exact h
  · exact inv_accept v s
  · exact h
  · exact inv_writeStatus v h
  · exact inv_resetCore s
  · exact h
  · exact h

theorem inv_engineTurn {s t : State} (h : Inv s) (he : engineTurn s = .next t) : Inv t := by
  obtain ⟨t', ht, hcases⟩ := engineTurn_cases s
  obtain rfl := Host.Outcome.next.inj (he.symm.trans ht)
  rcases hcases with rfl | ⟨-, ⟨vs, hlen, -, rfl⟩ | ⟨c, hc, rfl⟩⟩
  · exact h
  · exact inv_withRoots s vs hlen
  · exact inv_withError s c hc

/-- A draw is taken only while it is waited for (R180). -/
theorem inv_offerWitness {s : State} (r : BitVec s.cfg.width) (h : Inv s) : Inv (offerWitness s r) := by
  rcases offerWitness_cases s r with ⟨-, he⟩ | ⟨snap, draws, hp, ha, -, he⟩ <;> rw [he]
  · exact h
  · obtain ⟨hcount, -, hbusy⟩ := h
    obtain ⟨hregs, hdraws⟩ := hbusy snap draws hp
    refine ⟨hcount, fun hidle => by simp at hidle, fun snap' draws' hp' => ?_⟩
    obtain ⟨rfl, rfl⟩ := Phase.busy.inj hp'
    exact ⟨hregs, drawsTaken_snoc snap draws r hdraws ha⟩

/-! ## What it says while BUSY -/

/-- The registers and the draws of a running command. -/
theorem inv_busy {s : State} (h : Inv s) {snap : Snapshot s.cfg.width} {draws : List (BitVec s.cfg.width)}
    (hp : s.phase = .busy snap draws) : busyRegisters s snap ∧ drawsTaken snap draws := by
  obtain ⟨-, -, hbusy⟩ := h
  exact hbusy snap draws hp

/-- With DONE, ERRCODE and RCOUNT 0, STATUS of a running command is BUSY and OVR. -/
theorem statusWord_of_busy (s : State) (hb : busyBit s = true) (hd : s.done = false) (he : s.errcode = .ok)
    (hr : s.rcount = 0) : statusWord s = if s.ovr then 0x00000009 else 0x00000001 := by
  have herr : errBit s = false := by rw [errBit, he]; rfl
  rw [statusWord, hb, hd, herr, he, hr]
  cases s.ovr <;> rfl

/-! ## The statements -/

/-- Settles O58, turn by turn, from `step_cases`. -/
theorem everyStepKeepsTheInvariant : Obligations.EveryStepKeepsTheInvariant := by
  unfold Obligations.EveryStepKeepsTheInvariant
  intro s t hinv h
  rcases step_cases s t h with ⟨-, he⟩ | ⟨ev, rest, -, ⟨-, he⟩ | ⟨r, -, rfl⟩ | ⟨-, rfl⟩ | ⟨a, r, -, rfl, -⟩ |
    ⟨off, v, h4, -, rfl⟩⟩
  · exact inv_engineTurn hinv he
  · exact inv_engineTurn (inv_inputs rest hinv) he
  · exact inv_offerWitness (s := { s with inputs := rest }) r (inv_inputs rest hinv)
  · exact inv_resetCore { s with inputs := rest }
  · exact inv_answer r (inv_inputs rest hinv)
  · exact inv_answer .writeOk (inv_regWrite off v h4 (inv_inputs rest hinv))

/-- Settles O57: the reset state of a configuration is what `resetCore` makes of it. -/
theorem resetStateMeetsInvariant : Obligations.ResetStateMeetsInvariant := by
  unfold Obligations.ResetStateMeetsInvariant
  exact ⟨inv_resetCore State.reset, fun c => inv_resetCore (State.resetOf c)⟩

/-- Settles O53, from `statusWord_of_busy`. -/
theorem statusReadsBusyOnlyWhileRunning : Obligations.StatusReadsBusyOnlyWhileRunning := by
  unfold Obligations.StatusReadsBusyOnlyWhileRunning
  intro s hinv hb
  rw [regRead_status]
  cases hp : s.phase with
  | idle => exact absurd hp ((busyBit_eq_true_iff s).mp hb)
  | busy snap draws =>
    obtain ⟨⟨-, hdone, herr, hrc⟩, -⟩ := inv_busy hinv hp
    exact statusWord_of_busy s hb hdone herr hrc

end Sys2Proof.Machine
end

section
/-! The statements on steps (spec/20_memory.md R60, spec/40_command_lifecycle.md R112 to R114), on an idle engine
(spec/60_exceptions.md R275), on what a completion leaves alone (R250, R261; spec/10_state.md R25, R26) and on resets
(spec/70_reset_and_hazards.md R291, R292). -/

namespace Sys2Proof.Machine

/-! ## Steps that go on -/

/-- The engine's turn always answers a next state: no command stops the machine. -/
theorem engineTurn_next (s : State) : ∃ t, engineTurn s = .next t := by
  obtain ⟨t, ht, -⟩ := engineTurn_cases s
  exact ⟨t, ht⟩

/-- A state whose list of turns is empty is the state with the empty list. -/
theorem with_inputs_nil (s : State) (h : s.inputs = []) : { s with inputs := [] } = s := by
  rw [← h]

theorem decode_tableWord (nbits w : Nat) (i : Instr) (h : decodeTableWord nbits w = some i) :
    decode (tableWord nbits w) = .ok i := by
  unfold decodeTableWord at h
  split at h
  · split at h
    · next hd => rw [hd, Option.some.inj h]
    · cases h
  · cases h

/-! ## The result registers (R25, R26) -/

/-- RES0..RES3 hold the same values. By number, since the states' widths are equal but not the same term. -/
def sameResults (s t : State) : Prop :=
  t.res0.toNat = s.res0.toNat ∧ t.res1.toNat = s.res1.toNat ∧ t.res2.toNat = s.res2.toNat ∧ t.res3.toNat = s.res3.toNat

theorem sameResults_refl (s : State) : sameResults s s := ⟨rfl, rfl, rfl, rfl⟩

/-- The turn off the list is no part of the results. -/
theorem sameResults_of_inputs {s t : State} {ins : List (Event s.cfg.width)}
    (h : sameResults { s with inputs := ins } t) : sameResults s t := h

theorem sameResults_answer {s t : State} (r : BusResponse) (h : sameResults s t) : sameResults s (answer r t) := h

theorem offerWitness_sameResults (s : State) (r : BitVec s.cfg.width) : sameResults s (offerWitness s r) := by
  rcases offerWitness_cases s r with ⟨-, h⟩ | ⟨snap, draws, -, -, -, h⟩ <;> rw [h] <;> exact sameResults_refl s

/-- The engine's turn keeps the results, or it is the successful end of a running command (R113, R250). -/
theorem engineTurn_sameResults_or_success (s t : State) (h : engineTurn s = .next t) :
    sameResults s t ∨ (busyBit s = true ∧ busyBit t = false ∧ t.done = true ∧ t.errcode = .ok) := by
  obtain ⟨t', ht, hcases⟩ := engineTurn_cases s
  obtain rfl := Host.Outcome.next.inj (h.symm.trans ht)
  rcases hcases with rfl | ⟨hb, ⟨vs, -, -, rfl⟩ | ⟨c, -, rfl⟩⟩
  · exact .inl (sameResults_refl _)
  · exact .inr ⟨hb, rfl, rfl, rfl⟩
  · exact .inl (sameResults_refl s)

/-- A legal write keeps the results unless it is a soft reset. -/
theorem regWrite_resets_or_sameResults (off : Offset) (v : Word) (s : State) (h4 : off.toNat % 4 = 0) :
    (off = 0x004 ∧ v.getLsbD 1 = true) ∨ sameResults s (regWrite off v s) := by
  rcases regWrite_cases off v s h4 with ⟨h, -⟩ | ⟨-, -, h⟩ | ⟨-, -, h⟩ | ⟨-, h⟩ | ⟨hoff, hv, -⟩ | ⟨-, -, h⟩ |
    ⟨a, b, c, d, h, -⟩
  case inr.inr.inr.inr.inl => exact .inl ⟨hoff, hv⟩
  all_goals
    rw [h]
    exact .inr (sameResults_refl s)

/-! ## Reads after a reset (R291) -/

theorem getWord_zero (w i : Nat) : getWord (0 : BitVec w) i = 0 := by
  simp [getWord]

theorem operand_resetOf (c : Config) (x : OpReg) : operand (State.resetOf c) x = 0 := by
  cases x <;> rfl

theorem result_resetOf (c : Config) (j : ResReg) : result (State.resetOf c) j = 0 := by
  cases j <;> rfl

/-- After a reset every aligned offset but ID's reads 0. -/
theorem regRead_resetOf (c : Config) (off : Offset) (h4 : off.toNat % 4 = 0) (hid : off ≠ 0x000) :
    regRead off (State.resetOf c) = 0 := by
  obtain ⟨hoff, -⟩ := offset_of_target (State.resetOf c).cfg.opwWords off h4
  unfold regRead
  cases ht : target (State.resetOf c).cfg.opwWords off with
  | id => exact absurd (hoff ht) hid
  | ctrl => exact ctrlWord_eq (State.resetOf c)
  | cmd => rfl
  | status => exact statusWord_resetOf c
  | operand x i => exact (congrArg (getWord · i) (operand_resetOf c x)).trans (getWord_zero _ i)
  | result j i => exact (congrArg (getWord · i) (result_resetOf c j)).trans (getWord_zero _ i)
  | reserved => rfl

/-! ## The statements on steps -/

/-- Settles O7: the engine, the witness source and a reset always go on, and `busAccess_fault` says where an access
stops. -/
theorem onlyAccessesOutsideTheWindowStop : Obligations.OnlyAccessesOutsideTheWindowStop := by
  unfold Obligations.OnlyAccessesOutsideTheWindowStop
  intro s
  cases hi : s.inputs with
  | nil => exact .inl (step_nil s hi ▸ engineTurn_next s)
  | cons ev rest =>
    cases ev with
    | engine => exact .inl (step_engine s rest hi ▸ engineTurn_next { s with inputs := rest })
    | witness r => exact .inl ⟨_, step_witness s r rest hi⟩
    | rst => exact .inl ⟨_, step_rst s rest hi⟩
    | access a =>
      rw [step_access s a rest hi]
      rcases busAccess_cases a { s with inputs := rest } with h | ⟨r, h, -⟩ | ⟨off, v, -, -, h⟩
      · refine .inr ⟨h, a, rest, rfl, ?_⟩
        cases a with
        | read addr size => exact busAccess_fault (.read addr size) { s with inputs := rest } h
        | write addr size be v => exact busAccess_fault (.write addr size be v) { s with inputs := rest } h
      · exact .inl ⟨_, h⟩
      · exact .inl ⟨_, h⟩

/-- Settles O8, from `step_cfg`. -/
theorem configurationNeverChanges : Obligations.ConfigurationNeverChanges := by
  unfold Obligations.ConfigurationNeverChanges
  exact fun s t h => ⟨step_cfg s t h, congrArg idWord (step_cfg s t h)⟩

/-- Settles O60: both lists lead to `engineTurn` of the same state, which completes an illegal word
(`engineTurn_illegal`) and keeps `completionFrame`. -/
theorem emptyInputsAreTheEnginesTurn : Obligations.EmptyInputsAreTheEnginesTurn := by
  unfold Obligations.EmptyInputsAreTheEnginesTurn
  intro s hnil
  rw [step_nil s hnil]
  refine ⟨?_, fun snap draws hp hinvalid => ?_, ?_⟩
  · rw [step_engine { s with inputs := [.engine] } [] rfl]
    exact congrArg engineTurn (with_inputs_nil s hnil).symm
  · obtain ⟨e, he⟩ := (decode_invalid_iff snap.word).mpr hinvalid
    exact engineTurn_illegal s snap draws e hp he
  · obtain ⟨t, ht⟩ := engineTurn_next s
    obtain ⟨r0, r1, r2, r3, k, c, d, p, rfl⟩ := engineTurn_completionFrame s t ht
    exact ⟨r0, r1, r2, r3, k, c, d, p, ht⟩

/-- Settles O5, from `engineTurn_valid`. -/
theorem stepRunsTheDecodedCommand : Obligations.StepRunsTheDecodedCommand := by
  unfold Obligations.StepRunsTheDecodedCommand
  refine fun s snap draws i hp hd => ⟨fun hnil => ?_, fun rest hin => ?_⟩
  · exact (step_nil s hnil).trans (engineTurn_valid s snap draws i hp hd)
  · exact (step_engine s rest hin).trans (engineTurn_valid { s with inputs := rest } snap draws i hp hd)

/-- Settles O6: the accepted word is the snapshot's, and the engine has the next turn. -/
theorem fetchWordRunsNext : Obligations.FetchWordRunsNext := by
  unfold Obligations.FetchWordRunsNext
  intro s nbits w i hi
  rw [step_engine (s.withFetchWord nbits w) s.inputs rfl]
  exact engineTurn_valid (accept (tableWord nbits w) s) _ [] i rfl (decode_tableWord nbits w i hi)

/-- Settles O9, from `engineTurn_idle` and `exec_idle`. -/
theorem idleEngineDoesNothing : Obligations.IdleEngineDoesNothing := by
  unfold Obligations.IdleEngineDoesNothing
  refine fun s hp => ⟨fun hnil => ?_, fun rest hin => ?_, fun i => exec_idle i s hp⟩
  · exact (step_nil s hnil).trans (engineTurn_idle s hp)
  · exact (step_engine s rest hin).trans (engineTurn_idle { s with inputs := rest } hp)

/-! ## The statements on completions -/

/-- Settles O14: of the ends in `exec_cases`, only the error completion leaves ERRCODE other than OK. -/
theorem errorCompletionKeepsResults : Obligations.ErrorCompletionKeepsResults := by
  unfold Obligations.ErrorCompletionKeepsResults
  intro i s t snap draws hp hok h herr
  rcases exec_cases i s t h with rfl | ⟨-, ⟨vs, -, -, rfl⟩ | ⟨c, -, rfl⟩⟩
  · exact absurd hok herr
  · exact absurd rfl herr
  · rfl

/-- Settles O52: both ends set DONE and keep IE, and waiting ends nothing. -/
theorem completionRaisesInterruptWhenEnabled : Obligations.CompletionRaisesInterruptWhenEnabled := by
  unfold Obligations.CompletionRaisesInterruptWhenEnabled
  intro i s t hb h hb'
  rcases exec_cases i s t h with rfl | ⟨-, ⟨vs, -, -, rfl⟩ | ⟨c, -, rfl⟩⟩
  · exact absurd hb (by simp [hb'])
  · exact Bool.true_and s.ie
  · exact Bool.true_and s.ie

/-- Settles O51, turn by turn, from `step_cases`. -/
theorem resultsChangeOnlyAtCompletionOrReset : Obligations.ResultsChangeOnlyAtCompletionOrReset := by
  unfold Obligations.ResultsChangeOnlyAtCompletionOrReset
  intro s t h
  rcases step_cases s t h with ⟨-, he⟩ | ⟨ev, rest, hi, ⟨-, he⟩ | ⟨r, -, rfl⟩ | ⟨rfl, -⟩ | ⟨a, r, -, rfl, -⟩ |
    ⟨off, v, h4, rfl, rfl⟩⟩
  · exact (engineTurn_sameResults_or_success s t he).imp_right .inl
  · rw [← busyBit_inputs s rest]
    exact (engineTurn_sameResults_or_success { s with inputs := rest } t he).imp sameResults_of_inputs .inl
  · exact .inl (sameResults_of_inputs (offerWitness_sameResults { s with inputs := rest } r))
  · exact .inr (.inr ⟨_, rest, hi, .inl rfl⟩)
  · exact .inl (sameResults_refl s)
  · rcases regWrite_resets_or_sameResults off v { s with inputs := rest } h4 with ⟨rfl, hv⟩ | hsame
    · exact .inr (.inr ⟨_, rest, hi, .inr ⟨v, hv, rfl⟩⟩)
    · exact .inl (sameResults_answer .writeOk (sameResults_of_inputs hsame))

/-! ## The statements on STATUS writes and resets -/

/-- Settles O49, from `writeStatus_eq`. -/
theorem statusWriteClearsDoneAndOverrunOnly : Obligations.StatusWriteClearsDoneAndOverrunOnly := by
  unfold Obligations.StatusWriteClearsDoneAndOverrunOnly
  intro s v rest hin
  rw [step_regWrite s 0x00C v rest (by decide) hin, regWrite_status, writeStatus_eq]
  rfl

/-- Settles O55: both sources lead to `resetCore`. -/
theorem resetFromEitherSourceClearsEverything : Obligations.ResetFromEitherSourceClearsEverything := by
  unfold Obligations.ResetFromEitherSourceClearsEverything
  refine fun s rest => ⟨fun hin => step_rst s rest hin, fun v hv hin => ?_, rfl, rfl⟩
  rw [step_regWrite s 0x004 v rest (by decide) hin, regWrite_ctrl, writeCtrl_srst v _ hv]
  rfl

/-- Settles O56, from `regRead_resetOf`. -/
theorem resetStateReadsZero : Obligations.ResetStateReadsZero := by
  unfold Obligations.ResetStateReadsZero
  exact ⟨⟨Config.reference, rfl⟩, fun c => ⟨rfl, rfl, rfl, regRead_resetOf c⟩⟩

end Sys2Proof.Machine
end

section
/-! The statements of spec/41_modular_arithmetic.md on modexp_fn and MODEXP (R140, R145) and on egcd_nat and egcd_fn
(R141, R142). -/

namespace Sys2Proof.Machine

/-! ## MODEXP's branches -/

theorem modexpOutcome_of_neg (b e m : Int) (he : e < 0) : modexpOutcome b e m = .fail .negExponent :=
  if_pos he

theorem modexpOutcome_of_bad_modulus (b e m : Int) (he : 0 ≤ e) (hm : m < 1) :
    modexpOutcome b e m = .fail .badModulus := by
  rw [modexpOutcome, if_neg he.not_gt, if_pos hm]

theorem modexpOutcome_of_legal (b e m : Int) (he : 0 ≤ e) (hm : 1 ≤ m) :
    modexpOutcome b e m = .ok [b ^ e.toNat % m] := by
  rw [modexpOutcome, if_neg he.not_gt, if_neg hm.not_gt, modexpFn_eq]

/-- A legal MODEXP writes base^exponent mod modulus, which is below the modulus and so never out of range (R145). -/
theorem exec_modexp_of_legal (s : State) (snap : Snapshot s.cfg.width) (draws : List (BitVec s.cfg.width))
    (hp : s.phase = .busy snap draws) (he : 0 ≤ sval snap.opb) (hm : 1 ≤ sval snap.opc) :
    exec .modexp s =
      .next (s.withResults 1 (sval snap.opa ^ (sval snap.opb).toNat % sval snap.opc) 0 0 0) := by
  obtain ⟨-, hmax⟩ := sval_bounds snap.opc
  have hnonneg := Int.emod_nonneg (sval snap.opa ^ (sval snap.opb).toNat) (show sval snap.opc ≠ 0 by omega)
  have hlt := Int.emod_lt_of_pos (sval snap.opa ^ (sval snap.opb).toNat) (show 0 < sval snap.opc by omega)
  rw [exec_done .modexp s snap draws _ hp rfl, modexpOutcome_of_legal _ _ _ he hm,
    complete_single_of_le s _ hnonneg (by omega)]

/-! ## egcd_fn with b = 0 (R142, C1) -/

theorem egcdFn_zero_of_nonneg (a : Int) (h : 0 ≤ a) : egcdFn a 0 = (a, 1, 0) := by
  simp [egcdFn, h]

theorem egcdFn_zero_of_neg (a : Int) (h : a < 0) : egcdFn a 0 = (-a, -1, 0) := by
  simp [egcdFn, h, abs_of_neg]

/-! ## The statements -/

/-- Settles O17, from `modexpFn_eq` for b and for b mod m, and `modexpFn_bounds`. -/
theorem modexpFunctionIsPowerModulo : Obligations.ModexpFunctionIsPowerModulo := by
  unfold Obligations.ModexpFunctionIsPowerModulo
  intro b e m hm
  have hred : (b % m) ^ e % m = b ^ e % m := (Int.mod_modEq b m).pow e
  exact ⟨(modexpFn_eq b e m).trans hred.symm, modexpFn_eq b e m, modexpFn_bounds b e m hm⟩

/-- Settles O18, branch by branch of `modexpOutcome`. -/
theorem modexpCompletes : Obligations.ModexpCompletes := by
  unfold Obligations.ModexpCompletes
  refine fun s snap draws hp => ⟨fun he => ?_, fun he hm => ?_, exec_modexp_of_legal s snap draws hp⟩
  · rw [exec_done .modexp s snap draws _ hp rfl, modexpOutcome_of_neg _ _ _ he, complete_fail]
  · rw [exec_done .modexp s snap draws _ hp rfl, modexpOutcome_of_bad_modulus _ _ _ he hm, complete_fail]

/-- Settles O19, from `egcdNat_step`. -/
theorem egcdNatObeysItsRecursion : Obligations.EgcdNatObeysItsRecursion := by
  unfold Obligations.EgcdNatObeysItsRecursion
  refine ⟨egcdNat_zero, fun a b g x1 y1 hb h => ?_⟩
  rw [egcdNat_step a b hb, h]

/-- Settles O20, from `egcdFn_gcd`, `egcdFn_bezout` and egcd_fn's values for b = 0. -/
theorem egcdFunctionGivesGcdAndBezout : Obligations.EgcdFunctionGivesGcdAndBezout := by
  unfold Obligations.EgcdFunctionGivesGcdAndBezout
  refine fun a b g x y h => ⟨?_, egcdFn_gcd a b, (egcdFn_bezout a b).trans (egcdFn_gcd a b).symm, ?_, ?_⟩
  · rw [egcdFn, h]
  · rintro ha rfl
    exact egcdFn_zero_of_nonneg a ha
  · rintro ha rfl
    exact egcdFn_zero_of_neg a ha

end Sys2Proof.Machine
end

section
/-! The statements of spec/42_primality.md on the witness of a draw (R182) and on FERMAT (R185, R187), with R42's bound
on the draws. -/

namespace Sys2Proof.Machine

/-! ## The range of FERMAT's results -/

/-- What lies between 0 and a register's value fits the register. -/
theorem fitsW_of_le_sval {w : Nat} (x : BitVec w) (v : Int) (h : 0 ≤ v) (hle : v ≤ sval x) : fitsW w v = true := by
  obtain ⟨-, hmax⟩ := sval_bounds x
  exact (fitsW_iff_le_of_nonneg w v h).mpr (hle.trans hmax)

theorem fitsW_zero (w : Nat) : fitsW w 0 = true := by
  simpa [sval] using fitsW_sval (0 : BitVec w)

/-- The witness of a draw fits, being at most n − 2. -/
theorem fitsW_witnessOf {w : Nat} (x r : BitVec w) (h : 5 ≤ sval x) : fitsW w (witnessOf (sval x) r) = true := by
  obtain ⟨hlo, hhi⟩ := witnessOf_bounds (sval x) r h
  exact fitsW_of_le_sval x _ (by omega) (by omega)

/-- RANGE cannot occur in FERMAT: verdict and count are at most `rounds`, the witness is below n (R185). -/
theorem fermatOutcome_fits {w : Nat} (x y : BitVec w) (draws : List (BitVec w)) (vs : List Int)
    (h : fermatOutcome (sval x) (sval y) draws = some (.ok vs)) : ∀ v ∈ vs, fitsW w v = true := by
  unfold fermatOutcome at h
  split at h
  · cases h
  next hrounds =>
  have hzero := fitsW_zero w
  have hcount : ∀ c : Int, 0 ≤ c → c ≤ sval y → fitsW w c = true := fitsW_of_le_sval y
  have hone : fitsW w 1 = true := hcount 1 (by omega) (by omega)
  split at h
  · cases h; simp [hzero]
  split at h
  · cases h; simp [hzero, hone]
  split at h
  · cases h; simp [hzero]
  have hwit := fun r => fitsW_witnessOf x r (by omega)
  rcases fermatTrials_cases (sval x) (sval y).toNat 0 0 draws with hn | ⟨ps, rest, -, -, -, ho⟩ |
    ⟨ps, r, rest, -, hlt, -, -, ho⟩
  · cases hn.symm.trans h
  · rw [zero_add, Int.toNat_of_nonneg (by omega)] at ho
    cases ho.symm.trans h
    have hlast : fitsW w ((ps.getLast?.map (witnessOf (sval x))).getD 0) = true := by
      cases ps.getLast? with
      | none => exact hzero
      | some r => exact hwit r
    simp [hone, hlast, hcount (sval y) (by omega) le_rfl]
  · cases ho.symm.trans h
    simp [hzero, hwit r, hcount _ (show (0 : Int) ≤ ps.length + 1 by omega) (by omega)]

/-- FERMAT's three results are written as they are. -/
theorem exec_fermat_ok (s : State) (snap : Snapshot s.cfg.width) (draws : List (BitVec s.cfg.width))
    (hp : s.phase = .busy snap draws) (v i a : Int)
    (ho : fermatOutcome (sval snap.opa) (sval snap.opb) draws = some (.ok [v, i, a])) :
    exec .fermat s = .next (s.withResults 3 v i a 0) := by
  rw [exec_done .fermat s snap draws _ hp ho, complete_ok _ s (fermatOutcome_fits _ _ draws _ ho)]
  rfl

/-! ## FERMAT's branches (R185) -/

theorem fermatOutcome_bad_rounds {w : Nat} (n rounds : Int) (draws : List (BitVec w)) (hr : rounds < 1) :
    fermatOutcome n rounds draws = some (.fail .badRounds) := if_pos hr

theorem fermatOutcome_of_lt_two {w : Nat} (n rounds : Int) (draws : List (BitVec w)) (hr : 1 ≤ rounds) (hn : n < 2) :
    fermatOutcome n rounds draws = some (.ok [0, 0, 0]) := by
  rw [fermatOutcome, if_neg hr.not_gt, if_pos hn]

theorem fermatOutcome_of_two_or_three {w : Nat} (n rounds : Int) (draws : List (BitVec w)) (hr : 1 ≤ rounds)
    (hn : n = 2 ∨ n = 3) : fermatOutcome n rounds draws = some (.ok [1, 0, 0]) := by
  rw [fermatOutcome, if_neg hr.not_gt, if_neg (by omega), if_pos hn]

theorem fermatOutcome_of_even {w : Nat} (n rounds : Int) (draws : List (BitVec w)) (hr : 1 ≤ rounds) (hn : 4 ≤ n)
    (he : n % 2 = 0) : fermatOutcome n rounds draws = some (.ok [0, 0, 0]) := by
  rw [fermatOutcome, if_neg hr.not_gt, if_neg (by omega), if_neg (by omega), if_pos he]

/-- The first failing trial ends FERMAT. -/
theorem fermatOutcome_first_fail {w : Nat} (n rounds : Int) (ps rest : List (BitVec w)) (r : BitVec w)
    (hr : 1 ≤ rounds) (hn : 5 ≤ n) (hodd : n % 2 = 1) (hlt : (ps.length : Int) < rounds)
    (hps : ∀ u ∈ ps, trialPasses n u) (hfail : ¬ trialPasses n r) :
    fermatOutcome n rounds (ps ++ r :: rest) = some (.ok [0, ps.length + 1, witnessOf n r]) := by
  rw [fermatOutcome_of_odd n rounds _ hr hn hodd,
    fermatTrials_first_fail n 0 0 rounds.toNat ps rest r (by omega) hps hfail, zero_add]

/-- The last of `rounds` passing trials ends FERMAT. -/
theorem fermatOutcome_all_pass {w : Nat} (n rounds : Int) (ps rest : List (BitVec w)) (r : BitVec w)
    (hr : 1 ≤ rounds) (hn : 5 ≤ n) (hodd : n % 2 = 1) (hlen : (ps.length : Int) + 1 = rounds)
    (hps : ∀ u ∈ ps, trialPasses n u) (hpass : trialPasses n r) :
    fermatOutcome n rounds (ps ++ r :: rest) = some (.ok [1, rounds, witnessOf n r]) := by
  have hall : ∀ u ∈ ps ++ [r], trialPasses n u := by
    intro u hu
    rcases List.mem_append.mp hu with hu | hu
    · exact hps u hu
    · exact List.mem_singleton.mp hu ▸ hpass
  have hloop := fermatTrials_all_pass n 0 0 (ps ++ [r]) rest hall
  have hlen' : (ps ++ [r]).length = rounds.toNat := by
    rw [List.length_append, List.length_singleton]
    omega
  have hrounds : (0 : Int) + (rounds.toNat : Int) = rounds := by omega
  rw [hlen', hrounds, List.getLast?_concat, List.append_assoc] at hloop
  rw [fermatOutcome_of_odd n rounds _ hr hn hodd]
  exact hloop

/-! ## Draws and results -/

/-- Without a draw no trial has run (R187). -/
theorem fermatOutcome_nil_count {w : Nat} (n rounds v i a : Int)
    (h : fermatOutcome n rounds ([] : List (BitVec w)) = some (.ok [v, i, a])) : i = 0 := by
  unfold fermatOutcome at h
  split at h
  · cases h
  next hrounds =>
  split at h
  · cases h; rfl
  split at h
  · cases h; rfl
  split at h
  · cases h; rfl
  · obtain ⟨left, hleft⟩ : ∃ left, rounds.toNat = left + 1 := ⟨rounds.toNat - 1, by omega⟩
    rw [hleft] at h
    cases h

/-- Where every draw was taken while waited for, the last one decides, and the second result counts them (R187). -/
theorem fermatOutcome_counts_draws {w : Nat} (n rounds : Int) (draws : List (BitVec w)) (v i a : Int)
    (htaken : ∀ k < draws.length, fermatOutcome n rounds (draws.take k) = none)
    (h : fermatOutcome n rounds draws = some (.ok [v, i, a])) : i = draws.length := by
  rcases List.eq_nil_or_concat' draws with rfl | ⟨ps, r, rfl⟩
  · exact fermatOutcome_nil_count n rounds v i a h
  · have hps : fermatOutcome n rounds ps = none := by simpa using htaken ps.length (by simp)
    obtain ⟨hr, hn, hodd, hlt, hpass⟩ := (fermatOutcome_eq_none_iff n rounds ps).mp hps
    have hnotnone : ¬ fermatOutcome n rounds (ps ++ [r]) = none := by simp [h]
    by_cases hlast : trialPasses n r
    · have hlen : (ps.length : Int) + 1 = rounds := by
        by_contra hne
        refine hnotnone ((fermatOutcome_eq_none_iff n rounds _).mpr ⟨hr, hn, hodd, ?_, ?_⟩)
        · simp; omega
        · simpa [or_imp, forall_and] using ⟨hpass, hlast⟩
      cases (fermatOutcome_all_pass n rounds ps [] r hr hn hodd hlen hpass hlast).symm.trans h
      simpa using hlen.symm
    · cases (fermatOutcome_first_fail n rounds ps [] r hr hn hodd hlt hpass hlast).symm.trans h
      simp

/-- A FERMAT on a prime that has an outcome has verdict 1, whatever the draws. -/
theorem fermatOutcome_of_isPrime {w : Nat} (n rounds : Int) (draws : List (BitVec w)) (hp : isPrime n = true)
    (hr : 1 ≤ rounds) :
    fermatOutcome n rounds draws = none ∨ ∃ i a, fermatOutcome n rounds draws = some (.ok [1, i, a]) := by
  have hprime := (isPrime_iff_prime n).mp hp
  have h2 := hprime.two_le
  by_cases hsmall : n = 2 ∨ n = 3
  · exact .inr ⟨0, 0, fermatOutcome_of_two_or_three n rounds draws hr hsmall⟩
  · have hodd : n.toNat % 2 = 1 := hprime.eq_two_or_odd.resolve_left (by omega)
    have hn : 5 ≤ n := by omega
    rw [fermatOutcome_of_odd n rounds draws hr hn (by omega)]
    rcases fermatTrials_cases n rounds.toNat 0 0 draws with h | ⟨ps, rest, -, -, -, h⟩ | ⟨ps, r, rest, -, -, -, hfail, -⟩
    · exact .inl h
    · exact .inr ⟨_, _, h⟩
    · exact absurd (trialPasses_of_isPrime n hn hp r) hfail

/-! ## The statements -/

/-- Settles O24: a in [2, n−2] is the witness of the draw a − 2. -/
theorem witnessesReachExactlyTheRange : Obligations.WitnessesReachExactlyTheRange := by
  unfold Obligations.WitnessesReachExactlyTheRange
  refine fun w x hn hodd => ⟨fun r => rfl, fun a => ⟨?_, fun ⟨hlo, hhi⟩ => ?_⟩⟩
  · rintro ⟨r, rfl⟩
    exact witnessOf_bounds (sval x) r hn
  · obtain ⟨-, hmax⟩ := sval_bounds x
    have hpow : (2 : Int) ^ (w - 1) ≤ 2 ^ w := pow_le_pow_right₀ (by norm_num) (by omega)
    have hlt : (a - 2).toNat < 2 ^ w := by
      zify
      omega
    refine ⟨BitVec.ofNat w (a - 2).toNat, ?_⟩
    rw [witnessOf, uval, BitVec.toNat_ofNat, Nat.mod_eq_of_lt hlt, Int.toNat_of_nonneg (by omega),
      Int.emod_eq_of_lt (by omega) (by omega)]
    omega

/-- Settles O25, branch by branch of `fermatOutcome`, each written by `exec_fermat_ok`. -/
theorem fermatCompletes : Obligations.FermatCompletes := by
  unfold Obligations.FermatCompletes
  intro s snap draws hp
  refine ⟨fun hr => ?_, fun hr hn => ?_, fun hr hn => ?_, fun hr hn he => ?_, fun hr hn hodd => ⟨?_, ?_, ?_⟩⟩
  · rw [exec_done .fermat s snap draws _ hp (fermatOutcome_bad_rounds _ _ draws hr), complete_fail]
  · exact exec_fermat_ok s snap draws hp 0 0 0 (fermatOutcome_of_lt_two _ _ draws hr hn)
  · exact exec_fermat_ok s snap draws hp 1 0 0 (fermatOutcome_of_two_or_three _ _ draws hr hn)
  · exact exec_fermat_ok s snap draws hp 0 0 0 (fermatOutcome_of_even _ _ draws hr hn he)
  · rintro ps r rest rfl hlt hps hfail
    exact exec_fermat_ok s snap _ hp _ _ _ (fermatOutcome_first_fail _ _ ps rest r hr hn hodd hlt hps hfail)
  · rintro ps r rest rfl hlen hps hpass
    exact exec_fermat_ok s snap _ hp _ _ _ (fermatOutcome_all_pass _ _ ps rest r hr hn hodd hlen hps hpass)
  · intro hlt hpass
    exact exec_waits .fermat s snap draws hp ((fermatOutcome_eq_none_iff _ _ draws).mpr ⟨hr, hn, hodd, hlt, hpass⟩)

/-- Settles O28: the results are FERMAT's three (`exec_fermat_ok`), the second of which counts the draws. -/
theorem fermatConsumesExactlyRes1Draws : Obligations.FermatConsumesExactlyRes1Draws := by
  unfold Obligations.FermatConsumesExactlyRes1Draws
  intro s t snap draws hinv hp hd h hb herr
  obtain ⟨-, hdraws⟩ := inv_busy hinv hp
  have htaken : ∀ k < draws.length, fermatOutcome (sval snap.opa) (sval snap.opb) (draws.take k) = none :=
    fun k hk => ((awaitsDraw_iff snap (draws.take k)).mp (hdraws k hk)).2
  rcases fermatOutcome_cases (sval snap.opa) (sval snap.opb) draws with ho | ho | ⟨v, i, a, ho⟩
  · cases (exec_waits .fermat s snap draws hp ho).symm.trans h
    simp [busyBit, hp] at hb
  · cases (exec_done .fermat s snap draws _ hp ho).symm.trans h
    cases herr
  · cases (exec_fermat_ok s snap draws hp v i a ho).symm.trans h
    have hfit : fitsW s.cfg.width i = true := fermatOutcome_fits _ _ draws _ ho i (by simp)
    exact (sval_encW (width_pos s.cfg) i hfit).trans (fermatOutcome_counts_draws _ _ draws v i a htaken ho)

/-- Settles O29: the last draw was taken while fewer than `rounds` were held. -/
theorem drawsAreAtMostRounds : Obligations.DrawsAreAtMostRounds := by
  unfold Obligations.DrawsAreAtMostRounds
  intro s snap draws hinv hp hne
  obtain ⟨-, hdraws⟩ := inv_busy hinv hp
  have hpos := List.length_pos_iff.mpr hne
  obtain ⟨hd, ho⟩ := (awaitsDraw_iff _ _).mp (hdraws (draws.length - 1) (by omega))
  obtain ⟨-, -, -, hlt, -⟩ := (fermatOutcome_eq_none_iff _ _ _).mp ho
  rw [List.length_take] at hlt
  exact ⟨hd, by omega⟩

/-- Settles O30, from `fermatOutcome_of_isPrime`. -/
theorem fermatNeverRejectsAPrime : Obligations.FermatNeverRejectsAPrime := by
  unfold Obligations.FermatNeverRejectsAPrime
  intro s t snap draws hp hr hn hprime h hb
  rcases fermatOutcome_of_isPrime (sval snap.opa) (sval snap.opb) draws ((isPrime_iff_prime _).mpr hprime) hr with
    ho | ⟨i, a, ho⟩
  · cases (exec_waits .fermat s snap draws hp ho).symm.trans h
    simp [busyBit, hp] at hb
  · cases (exec_fermat_ok s snap draws hp 1 i a ho).symm.trans h
    exact ⟨rfl, sval_encW (width_pos s.cfg) 1 (fermatOutcome_fits _ _ draws _ ho 1 (by simp))⟩

end Sys2Proof.Machine
end

section
/-! The statements of spec/43_square_root.md on isPrime and sortAsc (spec/00_scope.md R10), msqrt_fn and MSQRT (R202,
R205), and RSQRT (R210, R211). -/

namespace Sys2Proof.Machine

/-! ## isPrime over the integers -/

/-- A divisor below v is one of the natural number v. -/
theorem int_divisors_iff (v : Int) (h : 2 ≤ v) :
    (∀ d : Nat, 1 < d → d < v.toNat → ¬ d ∣ v.toNat) ↔ ∀ d : Int, 1 < d → d < v → ¬ d ∣ v := by
  lift v to Nat using by omega
  rw [Int.toNat_natCast]
  constructor
  · intro hnat d hd hlt hdvd
    lift d to Nat using by omega
    exact hnat d (by omega) (by omega) (Int.natCast_dvd_natCast.mp hdvd)
  · intro hint d hd hlt hdvd
    exact hint d (by omega) (by omega) (Int.natCast_dvd_natCast.mpr hdvd)

/-! ## msqrt_fn's branches -/

theorem msqrtFn_of_zero (a p : Int) (h : a % p = 0) : msqrtFn a p = [0] := if_pos h

theorem msqrtFn_of_not_euler (a p : Int) (h : a % p ≠ 0) (he : (a % p) ^ ((p - 1) / 2).toNat % p ≠ 1) :
    msqrtFn a p = [] := by
  rw [msqrtFn, if_neg h, modexpFn_eq, if_pos he]

/-- Where Euler's criterion holds the list is the candidate root and its negative, sorted. -/
theorem msqrtFn_of_euler (a p : Int) (h : a % p ≠ 0) (he : (a % p) ^ ((p - 1) / 2).toNat % p = 1) :
    msqrtFn a p = sortAsc [(a % p) ^ ((p + 1) / 4).toNat % p, p - (a % p) ^ ((p + 1) / 4).toNat % p] := by
  rw [msqrtFn, if_neg h, modexpFn_eq, if_neg (not_not_intro he)]
  simp only [modexpFn_eq]

theorem sortAsc_pair (u v : Int) (h : u ≠ v) : sortAsc [u, v] = if u < v then [u, v] else [v, u] := by
  simp only [sortAsc, insertAsc, if_neg h]

/-! ## The ends of MSQRT and RSQRT -/

theorem msqrtOutcome_wrong_class (a p : Int) (h : ¬ (3 ≤ p ∧ p % 4 = 3)) : msqrtOutcome a p = .fail .wrongClass := by
  rw [← classOK_iff, Bool.not_eq_true] at h
  exact if_pos h

theorem msqrtOutcome_not_prime (a p : Int) (hc : classOK p = true) (hp : ¬ isPrime p = true) :
    msqrtOutcome a p = .fail .notPrime := by
  simp [msqrtOutcome, hc, hp]

theorem msqrtOutcome_of_legal (a p : Int) (hc : classOK p = true) (hp : isPrime p = true) :
    msqrtOutcome a p = .ok (msqrtFn a p) := by
  simp [msqrtOutcome, hc, hp]

theorem rsqrtOutcome_wrong_class (c p q : Int) (h : ¬ (classOK p = true ∧ classOK q = true)) :
    rsqrtOutcome c p q = .fail .wrongClass := by
  cases hp : classOK p with
  | false => simp [rsqrtOutcome, hp]
  | true =>
    have hq : classOK q = false := by simpa [hp] using h
    simp [rsqrtOutcome, hp, hq]

theorem rsqrtOutcome_equal_primes (c p q : Int) (hcp : classOK p = true) (h : p = q) :
    rsqrtOutcome c p q = .fail .equalPrimes := by
  subst h
  simp [rsqrtOutcome, hcp]

theorem rsqrtOutcome_not_prime (c p q : Int) (hcp : classOK p = true) (hcq : classOK q = true) (hne : p ≠ q)
    (h : ¬ (isPrime p = true ∧ isPrime q = true)) : rsqrtOutcome c p q = .fail .notPrime := by
  cases hp : isPrime p with
  | false => simp [rsqrtOutcome, hcp, hcq, hne, hp]
  | true =>
    have hq : isPrime q = false := by simpa [hp] using h
    simp [rsqrtOutcome, hcp, hcq, hne, hp, hq]

theorem rsqrtOutcome_of_legal (c p q : Int) (hcp : classOK p = true) (hcq : classOK q = true) (hne : p ≠ q)
    (hp : isPrime p = true) (hq : isPrime q = true) : rsqrtOutcome c p q = .ok (rsqrtFn c p q) := by
  simp [rsqrtOutcome, hcp, hcq, hne, hp, hq]

/-- RSQRT's list holds the crt_fn of every pair of roots (R210). -/
theorem mem_rsqrtFn_iff_pair (c p q x : Int) :
    x ∈ rsqrtFn c p q ↔ ∃ rp ∈ msqrtFn c p, ∃ rq ∈ msqrtFn c q, x = crtFn rp rq p q := by
  simp only [rsqrtFn, mem_sortAsc, List.mem_flatMap, List.mem_map, eq_comm]

/-- Two lists of at most two roots give 0, 1, 2 or 4 pairs (C5). -/
theorem mul_of_le_two (m n : Nat) (hm : m ≤ 2) (hn : n ≤ 2) : m * n = 0 ∨ m * n = 1 ∨ m * n = 2 ∨ m * n = 4 := by
  interval_cases m <;> interval_cases n <;> decide

/-- Non-negative results that do not exceed 2^(W−1)−1 are written. -/
theorem complete_nonneg_of_le (s : State) (vs : List Int) (hpos : ∀ x ∈ vs, 0 ≤ x)
    (hle : ∀ x ∈ vs, x ≤ 2 ^ (s.cfg.width - 1) - 1) : complete (.ok vs) s = s.withRoots vs :=
  complete_ok vs s fun x hx => (fitsW_iff_le_of_nonneg s.cfg.width x (hpos x hx)).mpr (hle x hx)

/-- One above 2^(W−1)−1 ends the command with RANGE. -/
theorem complete_nonneg_of_gt (s : State) (vs : List Int) (hpos : ∀ x ∈ vs, 0 ≤ x)
    (hgt : ∃ x ∈ vs, 2 ^ (s.cfg.width - 1) - 1 < x) : complete (.ok vs) s = s.withError .range := by
  obtain ⟨x, hx, hgt⟩ := hgt
  exact complete_range vs s ⟨x, hx, Bool.eq_false_iff.mpr fun hfit =>
    ((fitsW_iff_le_of_nonneg s.cfg.width x (hpos x hx)).mp hfit).not_gt hgt⟩

/-- Each of at most four results that fits is read back from one of the first RCOUNT result registers. -/
theorem mem_withRoots (s : State) (vs : List Int) (v : Int) (hlen : vs.length ≤ 4) (hv : v ∈ vs)
    (hfit : fitsW s.cfg.width v = true) :
    (0 < (s.withRoots vs).rcount.toNat ∧ sval (s.withRoots vs).res0 = v) ∨
      (1 < (s.withRoots vs).rcount.toNat ∧ sval (s.withRoots vs).res1 = v) ∨
      (2 < (s.withRoots vs).rcount.toNat ∧ sval (s.withRoots vs).res2 = v) ∨
      (3 < (s.withRoots vs).rcount.toNat ∧ sval (s.withRoots vs).res3 = v) := by
  have hcount : (s.withRoots vs).rcount.toNat = vs.length := by
    simp only [State.withRoots, State.withResults, BitVec.toNat_ofNat]
    omega
  obtain ⟨j, hj, rfl⟩ := List.getElem_of_mem hv
  have hread : sval (encW s.cfg.width (vs.getD j 0)) = vs[j] := by
    rw [List.getD_eq_getElem vs 0 hj]
    exact sval_encW (width_pos s.cfg) _ hfit
  rw [hcount]
  have hj4 : j < 4 := by omega
  interval_cases j
  · exact .inl ⟨hj, hread⟩
  · exact .inr (.inl ⟨hj, hread⟩)
  · exact .inr (.inr (.inl ⟨hj, hread⟩))
  · exact .inr (.inr (.inr ⟨hj, hread⟩))

/-! ## The statements -/

/-- Settles O31, from `isPrimeNat_iff`. -/
theorem primalityCheckIsExact : Obligations.PrimalityCheckIsExact := by
  unfold Obligations.PrimalityCheckIsExact
  intro v
  have h2 : 2 ≤ v.toNat ↔ 2 ≤ v := by omega
  rw [isPrime, isPrimeNat_iff, h2]
  exact and_congr_right (int_divisors_iff v)

/-- Settles O32, from `sortAsc_pairwise`, `mem_sortAsc` and `eq_of_pairwise_of_mem`. -/
theorem sortAscIsTheAscendingListOfTheSet : Obligations.SortAscIsTheAscendingListOfTheSet := by
  unfold Obligations.SortAscIsTheAscendingListOfTheSet
  exact fun l => ⟨sortAsc_pairwise l, fun v => mem_sortAsc v l, fun m hm hmem =>
    eq_of_pairwise_of_mem m (sortAsc l) hm (sortAsc_pairwise l) fun v => (hmem v).trans (mem_sortAsc v l).symm⟩

/-- Settles O33: the two candidates differ because p is odd, and both are square roots by `mem_msqrtFn`. -/
theorem squareRootFunctionFollowsEuler : Obligations.SquareRootFunctionFollowsEuler := by
  unfold Obligations.SquareRootFunctionFollowsEuler
  intro a p x hc hp hx
  refine ⟨msqrtFn_of_zero a p, msqrtFn_of_not_euler a p, fun h he => ?_⟩
  obtain ⟨-, hodd⟩ := (classOK_iff p).mp hc
  have hne : x ≠ p - x := by omega
  have hroots := msqrtFn_of_euler a p h he
  rw [← hx] at hroots
  obtain ⟨-, -, hsq⟩ := (mem_msqrtFn a p hc hp x).mp (by simp [hroots, mem_sortAsc])
  obtain ⟨-, -, hsq'⟩ := (mem_msqrtFn a p hc hp (p - x)).mp (by simp [hroots, mem_sortAsc])
  exact ⟨hroots.trans (sortAsc_pair x (p - x) hne), hne, hsq, hsq'⟩

/-- Settles O34, branch by branch of `msqrtOutcome`; the roots fit, being below p. -/
theorem msqrtCompletes : Obligations.MsqrtCompletes := by
  unfold Obligations.MsqrtCompletes
  intro s snap draws hphase
  rw [exec_done .msqrt s snap draws _ hphase rfl]
  refine ⟨fun h => ?_, fun h3 h4 hn => ?_, fun h3 h4 hprime => ?_⟩
  · rw [msqrtOutcome_wrong_class _ _ h, complete_fail]
  · rw [msqrtOutcome_not_prime _ _ ((classOK_iff _).mpr ⟨h3, h4⟩) fun hp => hn ((isPrime_iff_prime _).mp hp),
      complete_fail]
  · have hc := (classOK_iff _).mpr ⟨h3, h4⟩
    have hp := (isPrime_iff_prime _).mpr hprime
    have hmem := mem_msqrtFn (sval snap.opa) (sval snap.opb) hc hp
    refine ⟨?_, msqrtFn_pairwise _ _, msqrtFn_length _ _, hmem⟩
    rw [msqrtOutcome_of_legal _ _ hc hp, complete_ok _ s fun x hx => ?_]
    obtain ⟨h0, hlt, -⟩ := (hmem x).mp hx
    exact fitsW_of_le_sval snap.opb x h0 hlt.le

/-- Settles O35, branch by branch of `rsqrtOutcome`; the list is that of `mem_rsqrtFn`, and being non-negative its roots
fail the range check only above. -/
theorem rsqrtCompletes : Obligations.RsqrtCompletes := by
  unfold Obligations.RsqrtCompletes
  intro s snap draws c p q hphase hc hp hq
  have hexec : exec .rsqrt s = .next (complete (rsqrtOutcome c p q) s) := by
    rw [exec_done .rsqrt s snap draws _ hphase rfl, hc, hp, hq]
  have hclass : ∀ {r : Int}, 3 ≤ r → r % 4 = 3 → classOK r = true := fun h3 h4 => (classOK_iff _).mpr ⟨h3, h4⟩
  refine ⟨fun h => ?_, fun hp3 hp4 hq3 hq4 heq => ?_, fun hp3 hp4 hq3 hq4 hne hnp => ?_,
    fun hp3 hp4 hq3 hq4 hne hpp hqp => ?_⟩
  · rw [hexec, rsqrtOutcome_wrong_class c p q (by rwa [classOK_iff, classOK_iff, and_assoc]), complete_fail]
  · rw [hexec, rsqrtOutcome_equal_primes c p q (hclass hp3 hp4) heq, complete_fail]
  · rw [hexec, rsqrtOutcome_not_prime c p q (hclass hp3 hp4) (hclass hq3 hq4) hne
      (by rwa [isPrime_iff_prime, isPrime_iff_prime]), complete_fail]
  · have hp' := (isPrime_iff_prime p).mpr hpp
    have hq' := (isPrime_iff_prime q).mpr hqp
    have hmem := mem_rsqrtFn c p q (hclass hp3 hp4) (hclass hq3 hq4) hp' hq' hne
    have hlen := rsqrtFn_length c p q (hclass hp3 hp4) (hclass hq3 hq4) hp' hq' hne
    have ho := rsqrtOutcome_of_legal c p q (hclass hp3 hp4) (hclass hq3 hq4) hne hp' hq'
    have hpos : ∀ x ∈ rsqrtFn c p q, 0 ≤ x := fun x hx => ((hmem x).mp hx).1
    refine ⟨rsqrtFn_pairwise c p q, hmem, mem_rsqrtFn_iff_pair c p q, hlen, ?_, fun hle => ?_, fun hgt => ?_⟩
    · rw [hlen]
      exact mul_of_le_two _ _ (msqrtFn_length c p) (msqrtFn_length c q)
    · rw [hexec, ho, complete_nonneg_of_le s _ hpos hle]
    · rw [hexec, ho, complete_nonneg_of_gt s _ hpos hgt]

/-- Settles O36: m is one of the roots (O35), which all fit, and `mem_withRoots` reads it back. -/
theorem rabinRoundTripRecoversPlaintext : Obligations.RabinRoundTripRecoversPlaintext := by
  unfold Obligations.RabinRoundTripRecoversPlaintext
  intro s snap draws p q m hphase hp hq hp3 hp4 hq3 hq4 hne hpp hqp hfits hm hmlt hcipher
  obtain ⟨-, -, -, hlegal⟩ := rsqrtCompletes s snap draws _ p q hphase rfl hp hq
  obtain ⟨-, hmem, -, -, -, hroots, -⟩ := hlegal hp3 hp4 hq3 hq4 hne hpp hqp
  have hle : ∀ x ∈ rsqrtFn (sval snap.opa) p q, x ≤ 2 ^ (s.cfg.width - 1) - 1 := fun x hx => by
    obtain ⟨-, hlt, -⟩ := (hmem x).mp hx
    omega
  have hroot : m ∈ rsqrtFn (sval snap.opa) p q :=
    (hmem m).mpr ⟨hm, hmlt, by rw [hcipher, Int.emod_emod_of_dvd _ dvd_rfl]⟩
  exact ⟨_, hroots hle, rfl, rfl, mem_withRoots s _ m (rsqrtFn_length_le _ p q) hroot
    ((fitsW_iff_le_of_nonneg s.cfg.width m hm).mpr (hle m hroot))⟩

end Sys2Proof.Machine
end

section
/-! The statements of spec/44_smooth_exponent.md on smooth_fn's value (R230) and on SMOOTH's thresholds (R235). -/

namespace Sys2Proof.Machine

/-! ## The thresholds (R235) -/

theorem smoothFn_22 : smoothFn 22 = 232792560 := by decide
theorem smoothFn_23 : smoothFn 23 = 5354228880 := by decide
theorem smoothFn_42 : smoothFn 42 = 219060189739591200 := by decide
theorem smoothFn_43 : smoothFn 43 = 9419588158802421600 := by decide

/-- smooth_fn does not decrease, so a bound up to one whose value fits completes with its value. -/
theorem exec_smooth_of_le (s : State) (snap : Snapshot s.cfg.width) (draws : List (BitVec s.cfg.width)) (b : Nat)
    (hp : s.phase = .busy snap draws) (h0 : 0 ≤ sval snap.opa) (hb : sval snap.opa ≤ b)
    (hfit : (smoothFn b : Int) ≤ 2 ^ (s.cfg.width - 1) - 1) :
    exec .smooth s = .next (s.withResults 1 (smoothFn (sval snap.opa).toNat) 0 0 0) := by
  have hmono : (smoothFn (sval snap.opa).toNat : Int) ≤ smoothFn b :=
    Int.ofNat_le.mpr (smoothFn_mono _ b (by omega))
  rw [exec_done .smooth s snap draws _ hp rfl, smoothOutcome_of_nonneg _ h0,
    complete_single_of_le s _ (Int.natCast_nonneg _) (hmono.trans hfit)]

/-- A bound from one on whose value is out of range gives RANGE. -/
theorem exec_smooth_of_ge (s : State) (snap : Snapshot s.cfg.width) (draws : List (BitVec s.cfg.width)) (b : Nat)
    (hp : s.phase = .busy snap draws) (hb : (b : Int) ≤ sval snap.opa)
    (hrange : 2 ^ (s.cfg.width - 1) - 1 < (smoothFn b : Int)) : exec .smooth s = .next (s.withError .range) := by
  have hmono : (smoothFn b : Int) ≤ smoothFn (sval snap.opa).toNat :=
    Int.ofNat_le.mpr (smoothFn_mono b _ (by omega))
  rw [exec_done .smooth s snap draws _ hp rfl, smoothOutcome_of_nonneg _ (by omega),
    complete_single_of_gt s _ (Int.natCast_nonneg _) (hrange.trans_le hmono)]

/-! ## The statements -/

/-- Settles O39: the product of prime powers in `smoothFn_eq` is Mathlib's `Nat.lcmUpto_eq_prod_pow_log`. -/
theorem smoothFunctionIsTheLcm : Obligations.SmoothFunctionIsTheLcm := by
  unfold Obligations.SmoothFunctionIsTheLcm
  intro b
  calc smoothFn b = ∏ p ∈ (Finset.range (b + 1)).filter Nat.Prime, p ^ Nat.log p b := smoothFn_eq b
    _ = ∏ p ∈ Nat.primesLE b, p ^ Nat.log p b := by rw [Nat.primesLE_eq_filter_range]
    _ = Nat.lcmUpto b := (Nat.lcmUpto_eq_prod_pow_log b).symm
    _ = (Finset.Icc 1 b).lcm id := by rw [Nat.lcmUpto]

/-- Settles O38: the values at 22 and 42 fit W = 32 and W = 64, those at 23 and 43 do not. -/
theorem smoothThresholdsAtTheSpecWidths : Obligations.SmoothThresholdsAtTheSpecWidths := by
  unfold Obligations.SmoothThresholdsAtTheSpecWidths
  refine fun s snap draws hp => ⟨fun hk => ?_, fun hk => ?_⟩
  · have hw : s.cfg.width = 32 := by rw [Config.width, hk]
    refine ⟨fun h0 hb => ⟨_, exec_smooth_of_le s snap draws 22 hp h0 hb ?_, fun h => ?_⟩,
      fun hb => exec_smooth_of_ge s snap draws 23 hp hb ?_⟩
    · rw [hw, smoothFn_22]; norm_num
    · rw [h]; exact_mod_cast smoothFn_22
    · rw [hw, smoothFn_23]; norm_num
  · have hw : s.cfg.width = 64 := by rw [Config.width, hk]
    refine ⟨fun h0 hb => ⟨_, exec_smooth_of_le s snap draws 42 hp h0 hb ?_, fun h => ?_⟩,
      fun hb => exec_smooth_of_ge s snap draws 43 hp hb ?_⟩
    · rw [hw, smoothFn_42]; norm_num
    · rw [h]; exact_mod_cast smoothFn_42
    · rw [hw, smoothFn_43]; norm_num

end Sys2Proof.Machine
end

section
/-! The statements on host operations and interleavings: WR and RD (spec/30_encoding.md R99, spec/20_memory.md R64), an
operand write beside the engine's turn (spec/10_state.md R23), a torn read (spec/70_reset_and_hazards.md R298) and the
end of every running command (R306). -/

namespace Sys2Proof.Machine

/-! ## WR: the writes of a register's words (R99) -/

/-- Operand register `x` holds `y`, the turns still to come are `ins`, the port's answer is `r`; all else is that of
`s`. -/
def withOperand (s : State) (x : OpReg) (y : BitVec s.cfg.width) (ins : List (Event s.cfg.width)) (r : BusResponse) :
    State :=
  match x with
  | .a => { s with opa := y, inputs := ins, resp := r }
  | .b => { s with opb := y, inputs := ins, resp := r }
  | .c => { s with opc := y, inputs := ins, resp := r }
  | .d => { s with opd := y, inputs := ins, resp := r }

theorem withOperand_self (s : State) (x : OpReg) : withOperand s x (operand s x) s.inputs s.resp = s := by
  cases x <;> rfl

/-- The host's write of word i of `y` to operand register `x`. -/
def wordWrite (c : Config) (x : OpReg) (y : BitVec c.width) (i : Nat) : Event c.width :=
  .access (Access.regWrite c (RegName.operand x i).offset (getWord y i))

theorem hostTurns_wr (c : Config) (x : OpReg) (v : Int) :
    hostTurns c [.wr x v] = (List.range c.opwWords).map (wordWrite c x (encW c.width v)) := by
  simp [hostTurns, HostOp.expand, writeWords, Transaction.access, wordWrite, Function.comp_def]

/-- A register that holds `z`, after word i of `y` is written for each i of a list. -/
def copyWords {w : Nat} (y z : BitVec w) (is : List Nat) : BitVec w :=
  is.foldl (fun u i => setWord u i (getWord y i)) z

theorem getWord_copyWords_of_not_mem {w : Nat} (y z : BitVec w) (is : List Nat) (j : Nat) (hj : 32 * j + 32 ≤ w)
    (h : j ∉ is) : getWord (copyWords y z is) j = getWord z j := by
  induction is generalizing z with
  | nil => rfl
  | cons i is ih =>
    rw [List.mem_cons, not_or] at h
    obtain ⟨hne, hnot⟩ := h
    exact (ih (setWord z i (getWord y i)) hnot).trans (getWord_setWord_other z i j _ hne hj)

theorem getWord_copyWords_of_mem {w : Nat} (y z : BitVec w) (is : List Nat) (j : Nat) (hj : 32 * j + 32 ≤ w)
    (h : j ∈ is) : getWord (copyWords y z is) j = getWord y j := by
  induction is generalizing z with
  | nil => cases h
  | cons i is ih =>
    by_cases hin : j ∈ is
    · exact ih (setWord z i (getWord y i)) hin
    · obtain rfl : j = i := (List.mem_cons.mp h).resolve_right hin
      exact (getWord_copyWords_of_not_mem y _ is j hj hin).trans (getWord_setWord_same z j _ hj)

/-- Writing all words of `y` makes the register `y`, whatever it held. -/
theorem copyWords_range {k : Nat} (y z : BitVec (32 * k)) : copyWords y z (List.range k) = y :=
  eq_of_getWord _ _ fun i hi => getWord_copyWords_of_mem y z _ i (by omega) (List.mem_range.mpr hi)

/-- One of the writes. -/
theorem step_wordWrite (s : State) (x : OpReg) (y z : BitVec s.cfg.width) (i : Nat) (rest : List (Event s.cfg.width))
    (r : BusResponse) (hi : i < s.cfg.opwWords) :
    step (withOperand s x z (wordWrite s.cfg x y i :: rest) r) =
      .next (withOperand s x (setWord z i (getWord y i)) rest .writeOk) := by
  cases x
  · exact step_writeOperand (withOperand s .a z _ r) .a i (getWord y i) rest hi rfl
  · exact step_writeOperand (withOperand s .b z _ r) .b i (getWord y i) rest hi rfl
  · exact step_writeOperand (withOperand s .c z _ r) .c i (getWord y i) rest hi rfl
  · exact step_writeOperand (withOperand s .d z _ r) .d i (getWord y i) rest hi rfl

/-- The writes one after the other. -/
theorem runSteps_wordWrites (s : State) (x : OpReg) (y z : BitVec s.cfg.width) (is : List Nat)
    (rest : List (Event s.cfg.width)) (r : BusResponse) (his : ∀ i ∈ is, i < s.cfg.opwWords) :
    runSteps is.length (withOperand s x z (is.map (wordWrite s.cfg x y) ++ rest) r) =
      .next (withOperand s x (copyWords y z is) rest (if is = [] then r else .writeOk)) := by
  induction is generalizing z r with
  | nil => exact runSteps_zero _
  | cons i is ih =>
    rw [List.forall_mem_cons] at his
    obtain ⟨hi, his⟩ := his
    rw [List.length_cons, List.map_cons, List.cons_append, runSteps_succ _ _ _ (step_wordWrite s x y z i _ r hi),
      ih (setWord z i (getWord y i)) .writeOk his, ite_self, if_neg (List.cons_ne_nil i is)]
    rfl

/-- The K writes of `WR X, v` leave the encoding of v in X. -/
theorem runSteps_wr (s : State) (x : OpReg) (v : Int) (rest : List (Event s.cfg.width))
    (h : s.inputs = hostTurns s.cfg [.wr x v] ++ rest) :
    runSteps s.cfg.opwWords s = .next (withOperand s x (encW s.cfg.width v) rest .writeOk) := by
  have hne : List.range s.cfg.opwWords ≠ [] := by
    have := s.cfg.one_le_opwWords
    simp
    omega
  have hrun := runSteps_wordWrites s x (encW s.cfg.width v) (operand s x) (List.range s.cfg.opwWords) rest s.resp
    fun i hi => List.mem_range.mp hi
  rwa [← hostTurns_wr, ← h, withOperand_self, List.length_range, copyWords_range, if_neg hne] at hrun

/-! ## The engine's turn beside other writes -/

/-- A state that differs only in operand registers, coming turns and the port's answer has the same end of the running
command (R117). -/
theorem engineTurn_alike (s : State) (snap : Snapshot s.cfg.width) (draws : List (BitVec s.cfg.width))
    (a b c d : BitVec s.cfg.width) (ins : List (Event s.cfg.width)) (r : BusResponse) (hp : s.phase = .busy snap draws) :
    let t : State := { s with opa := a, opb := b, opc := c, opd := d, inputs := ins, resp := r }
    (engineTurn s = .next s ∧ engineTurn t = .next t) ∨
      (∃ vs : List Int, engineTurn s = .next (s.withRoots vs) ∧ engineTurn t = .next (t.withRoots vs)) ∨
      (∃ e, engineTurn s = .next (s.withError e) ∧ engineTurn t = .next (t.withError e)) := by
  intro t
  cases hd : decode snap.word with
  | error e =>
    exact .inr (.inr ⟨.badCmd, engineTurn_illegal s snap draws e hp hd, engineTurn_illegal t snap draws e hp hd⟩)
  | ok i =>
    rw [engineTurn_valid s snap draws i hp hd, engineTurn_valid t snap draws i hp hd]
    have h := outcomeDependsOnSnapshotAndDrawsOnly i s snap draws draws a b c d s.res0 s.res1 s.res2 s.res3 s.ie s.done
      s.ovr s.cmd s.errcode s.rcount ins r hp fun _ => rfl
    rw [← hp] at h
    exact h

theorem runSteps_two {s t u : State} (h1 : step s = .next t) (h2 : step t = .next u) : runSteps 2 s = .next u :=
  (runSteps_succ 1 s t h1).trans (runSteps_succ 0 t u h2)

/-- A word written in front of the engine's turn. -/
theorem runSteps_write_engine {s t : State} {x : OpReg} {i : Nat} {v : Word} {rest : List (Event s.cfg.width)}
    (h : engineTurn (answer .writeOk (writeOperandWord { s with inputs := rest } x i v)) = .next t)
    (hi : i < s.cfg.opwWords) :
    runSteps 2 { s with inputs := .access (Access.regWrite s.cfg (RegName.operand x i).offset v) :: .engine :: rest } =
      .next t := by
  have hengine : step (answer .writeOk (writeOperandWord { s with inputs := .engine :: rest } x i v)) =
      engineTurn (answer .writeOk (writeOperandWord { s with inputs := rest } x i v)) := by
    cases x <;> rfl
  exact runSteps_two (step_writeOperand { s with inputs := _ :: .engine :: rest } x i v (.engine :: rest) hi rfl)
    (hengine.trans h)

/-- A word written behind the engine's turn. -/
theorem runSteps_engine_write {s t : State} {x : OpReg} {i : Nat} {v : Word} {w : Event s.cfg.width}
    {rest : List (Event s.cfg.width)} {tl : List (Event t.cfg.width)}
    (h : engineTurn { s with inputs := w :: rest } = .next t)
    (ht : t.inputs = .access (Access.regWrite t.cfg (RegName.operand x i).offset v) :: tl) (hi : i < t.cfg.opwWords) :
    runSteps 2 { s with inputs := .engine :: w :: rest } =
      .next (answer .writeOk (writeOperandWord { t with inputs := tl } x i v)) :=
  runSteps_two ((step_engine { s with inputs := .engine :: w :: rest } (w :: rest) rfl).trans h)
    (step_writeOperand t x i v tl hi ht)

/-! ## Completion of a running command (R306) -/

/-- Only FERMAT can be without an outcome (R112, R180). -/
theorem outcomeOf_eq_none {w : Nat} (i : Instr) (snap : Snapshot w) (draws : List (BitVec w))
    (h : outcomeOf i snap draws = none) : i = .fermat := by
  cases i with
  | fermat => rfl
  | modexp | egcd | crt | msqrt | rsqrt | smooth => cases h

/-- The engine's turn completes a running command that does not wait for a draw. -/
theorem engineTurn_completes (s : State) (snap : Snapshot s.cfg.width) (draws : List (BitVec s.cfg.width))
    (hp : s.phase = .busy snap draws) (ha : awaitsDraw snap draws = false) :
    ∃ t, engineTurn s = .next t ∧ ((∃ vs, t = s.withRoots vs) ∨ ∃ e, t = s.withError e) := by
  cases hd : decode snap.word with
  | error e => exact ⟨_, engineTurn_illegal s snap draws e hp hd, .inr ⟨.badCmd, rfl⟩⟩
  | ok i =>
    rw [engineTurn_valid s snap draws i hp hd]
    cases ho : outcomeOf i snap draws with
    | none =>
      obtain rfl := outcomeOf_eq_none i snap draws ho
      simp [(awaitsDraw_iff snap draws).mpr ⟨hd, ho⟩] at ha
    | some o =>
      refine ⟨_, exec_done i s snap draws o hp ho, ?_⟩
      rcases complete_cases o s with ⟨vs, -, -, h⟩ | ⟨vs, -, h⟩ | ⟨c, -, h⟩
      · exact .inl ⟨vs, h⟩
      · exact .inr ⟨.range, h⟩
      · exact .inr ⟨c, h⟩

/-- A waiting command holds fewer draws than `rounds` (R180). -/
theorem length_lt_of_awaitsDraw {w : Nat} (snap : Snapshot w) (draws : List (BitVec w))
    (h : awaitsDraw snap draws = true) : (draws.length : Int) < sval snap.opb := by
  obtain ⟨-, ho⟩ := (awaitsDraw_iff snap draws).mp h
  obtain ⟨-, -, -, hlt, -⟩ := (fermatOutcome_eq_none_iff _ _ draws).mp ho
  exact hlt

/-- Offers for the rounds a waiting FERMAT still has, and the engine's turn after them, complete the command: an offer
is taken or the command waits no more. -/
theorem runSteps_offers_complete (s : State) (snap : Snapshot s.cfg.width) (draws offers : List (BitVec s.cfg.width))
    (h : awaitsDraw snap draws = true → sval snap.opb ≤ draws.length + offers.length) :
    ∃ t, runSteps (offers.length + 1) { s with phase := .busy snap draws, inputs := offers.map Event.witness } =
      .next t ∧ busyBit t = false ∧ t.done = true ∧ t.inputs = [] := by
  induction offers generalizing draws with
  | nil =>
    have ha : awaitsDraw snap draws = false := Bool.eq_false_iff.mpr fun ha => by
      have hlt := length_lt_of_awaitsDraw snap draws ha
      have hle := h ha
      simp only [List.length_nil, Nat.cast_zero, add_zero] at hle
      omega
    obtain ⟨t, ht, hend⟩ := engineTurn_completes { s with phase := .busy snap draws, inputs := [] } snap draws rfl ha
    refine ⟨t, (runSteps_succ 0 _ t ((step_nil _ rfl).trans ht)).trans (runSteps_zero t), ?_⟩
    rcases hend with ⟨vs, rfl⟩ | ⟨e, rfl⟩ <;> exact ⟨rfl, rfl, rfl⟩
  | cons r rs ih =>
    have hstep := step_witness { s with phase := .busy snap draws, inputs := (r :: rs).map Event.witness } r
      (rs.map Event.witness) rfl
    rw [List.length_cons, runSteps_succ _ _ _ hstep]
    cases ha : awaitsDraw snap draws with
    | true =>
      rw [offerWitness_of_ready { s with phase := .busy snap draws, inputs := rs.map Event.witness } r snap draws rfl ha]
      refine ih (draws ++ [r]) fun _ => ?_
      have hle := h ha
      simp only [List.length_append, List.length_cons, List.length_nil] at hle ⊢
      omega
    | false =>
      rw [offerWitness_of_not_ready { s with phase := .busy snap draws, inputs := rs.map Event.witness } r ha]
      exact ih draws fun hready => absurd hready (by simp [ha])

/-! ## The statements -/

/-- Settles O44, from `runSteps_wr`: the register then holds the encoding of v, whose sval is v. -/
theorem hostWrPutsTheInteger : Obligations.HostWrPutsTheInteger := by
  unfold Obligations.HostWrPutsTheInteger
  intro s x v rest hfit hin
  refine ⟨encW s.cfg.width v, sval_encW (width_pos s.cfg) v hfit, (runSteps_wr s x v rest hin).trans ?_⟩
  cases x <;> rfl

/-- Settles O45: the words read are the register's (`regRead_operand`, `regRead_result`), and put together they are the
register (`ofWords_getWord`). -/
theorem hostRdNamesTheSignedValue : Obligations.HostRdNamesTheSignedValue := by
  unfold Obligations.HostRdNamesTheSignedValue
  have hword : ∀ {c : Config} {i : Nat}, i ∈ List.range c.opwWords → i < c.opwWords ∧ i < 64 := fun {c i} hi => by
    have hk := List.mem_range.mp hi
    exact ⟨hk, hk.trans_le c.opwWords_le⟩
  refine fun s => ⟨fun x => ?_, fun j => ?_⟩
  · have hreads : (List.range s.cfg.opwWords).map (fun i => regRead (RegName.operand x i).offset s) =
        (List.range s.cfg.opwWords).map (getWord (operand s x)) := List.map_congr_left fun i hi => by
      obtain ⟨hk, h64⟩ := hword hi
      exact regRead_operand s _ x i hk (operand_offset_toNat x i h64)
    rw [namedValue, hreads, ofWords_getWord]
  · have hreads : (List.range s.cfg.opwWords).map (fun i => regRead (RegName.result j i).offset s) =
        (List.range s.cfg.opwWords).map (getWord (result s j)) := List.map_congr_left fun i hi => by
      obtain ⟨hk, h64⟩ := hword hi
      exact regRead_result s _ j i hk (result_offset_toNat j i h64)
    rw [namedValue, hreads, ofWords_getWord]

/-- Settles O16: the engine's turn ends the same way before and after the write (`engineTurn_alike`), and each end
leaves the operand registers to the write. -/
theorem operandWriteWhileBusyCommutesWithEngine : Obligations.OperandWriteWhileBusyCommutesWithEngine := by
  unfold Obligations.OperandWriteWhileBusyCommutesWithEngine
  intro s snap draws x i v rest hp hi w
  have hwritten : ∃ a b c d, answer .writeOk (writeOperandWord { s with inputs := rest } x i v) =
      { s with opa := a, opb := b, opc := c, opd := d, inputs := rest, resp := .writeOk } := by
    cases x <;> exact ⟨_, _, _, _, rfl⟩
  obtain ⟨a, b, c, d, hw⟩ := hwritten
  rcases engineTurn_alike { s with inputs := w :: rest } snap draws a b c d rest .writeOk hp with
    ⟨h1, h2⟩ | ⟨vs, h1, h2⟩ | ⟨e, h1, h2⟩
  all_goals
    rw [← hw] at h2
    refine (runSteps_write_engine h2 hi).trans (Eq.trans ?_ (runSteps_engine_write h1 rfl hi).symm)
    cases x <;> rfl

/-- Settles O59, from `runSteps_offers_complete`: only a FERMAT waits for draws. -/
theorem runningCommandsTerminate : Obligations.RunningCommandsTerminate := by
  unfold Obligations.RunningCommandsTerminate
  intro s snap draws offers hp hin h
  have hrun := runSteps_offers_complete s snap draws offers fun ha => h ((awaitsDraw_iff snap draws).mp ha).1
  rwa [← hp, ← hin] at hrun

/-- Settles O54: the read before the engine's turn sees the old RES0, the read after it the one MODEXP wrote
(`exec_modexp_of_legal`). -/
theorem tornReadSeesOldAndNewWord : Obligations.TornReadSeesOldAndNewWord := by
  unfold Obligations.TornReadSeesOldAndNewWord
  intro s snap draws rest hp hd hk he hm hin
  let read1 : Event s.cfg.width := .access (Access.regRead s.cfg 0x804)
  let t1 : State := { s with
    inputs := .engine :: read1 :: rest
    resp := .readOk (regRead 0x800 { s with inputs := .engine :: read1 :: rest }) }
  let t2 := State.withResults { t1 with inputs := read1 :: rest } 1
    (sval snap.opa ^ (sval snap.opb).toNat % sval snap.opc) 0 0 0
  have hturn : engineTurn { t1 with inputs := read1 :: rest } = .next t2 :=
    (engineTurn_valid { t1 with inputs := read1 :: rest } snap draws .modexp hp hd).trans
      (exec_modexp_of_legal { t1 with inputs := read1 :: rest } snap draws hp he hm)
  refine ⟨t1, t2, _, step_regRead s 0x800 _ (by decide) hin, (step_engine t1 (read1 :: rest) rfl).trans hturn,
    step_regRead t2 0x804 rest (by decide) rfl, ?_, ?_⟩
  · exact congrArg BusResponse.readOk
      (regRead_result { s with inputs := .engine :: read1 :: rest } 0x800 .r0 0 (show 0 < s.cfg.opwWords by omega) rfl)
  · exact congrArg BusResponse.readOk
      (regRead_result { t2 with inputs := rest } 0x804 .r0 1 (show 1 < s.cfg.opwWords by omega) rfl)

end Sys2Proof.Machine
end
